-- ==== Sys2Proof/Word.lean ====
section
/-! DEFINITION. The word types of the Lyra2 sponge-duplex block (00_scope.md R6, R8, R11). -/

namespace Sys2Proof

/-- R6: a word is a 64-bit unsigned integer, and its arithmetic wraps modulo 2^64. -/
abbrev Word := BitVec 64

/-- One byte lane of a host bus access (R42) or one byte of a host string (R46). -/
abbrev Byte := BitVec 8

/-- R11, R63: a row or column operand of a command is an unsigned 16-bit index. -/
abbrev Index := BitVec 16

/-- R8: a block is an ordered vector of 12 words. -/
abbrev Block := Vector Word 12

/-- R7: the sponge state is exactly 16 words. -/
abbrev Sponge := Vector Word 16

end Sys2Proof
end

