-- ==== Sys2Proof/Syntax.lean ====
section
/-! DEFINITION. The LSD command set, revision 1 (30_encoding.md R66): one constructor per opcode. -/

namespace Sys2Proof

/-- The 13 commands of R66. An operand is named as the opcode map names it; every operand is a 16-bit index (R63). -/
inductive Instr where
  /-- 0x00, R140: do nothing. -/
  | nop
  /-- 0x01, R95: initialise the sponge state. -/
  | init
  /-- 0x02, R96: apply the full (12-round) permutation. -/
  | permFull
  /-- 0x03, R97: apply the reduced (1-round) permutation. -/
  | permRed
  /-- 0x04, R98: absorb D[0..11] at the full rate. -/
  | absorb
  /-- 0x05, R99: absorb D[0..7] at the safe rate. -/
  | absorbSafe
  /-- 0x06, R100: copy the rate to D, then permute. -/
  | squeeze
  /-- 0x08, R111: copy one matrix cell into D. -/
  | blkRead (row col : Index)
  /-- 0x09, R112: copy D into one matrix cell. -/
  | blkWrite (row col : Index)
  /-- 0x10, R121: seed a row from the sponge state. -/
  | seedRow0 (rowOut : Index)
  /-- 0x11, R122: first-row duplexing. -/
  | duplexRow1 (rowIn rowOut : Index)
  /-- 0x12, R123: setup duplexing. -/
  | duplexSetup (rowIn rowInOut rowOut : Index)
  /-- 0x13, R124: wandering duplexing. -/
  | duplexWander (rowIn rowInOut rowOut : Index)
  deriving DecidableEq, Repr

/-- R66: the mnemonic of each command, as the opcode map spells it. -/
def Instr.mnemonic : Instr → String
  | .nop => "NOP"
  | .init => "INIT"
  | .permFull => "PERM_FULL"
  | .permRed => "PERM_RED"
  | .absorb => "ABSORB"
  | .absorbSafe => "ABSORB_SAFE"
  | .squeeze => "SQUEEZE"
  | .blkRead _ _ => "BLK_READ"
  | .blkWrite _ _ => "BLK_WRITE"
  | .seedRow0 _ => "SEED_ROW0"
  | .duplexRow1 _ _ => "DUPLEX_ROW1"
  | .duplexSetup _ _ _ => "DUPLEX_SETUP"
  | .duplexWander _ _ _ => "DUPLEX_WANDER"

/-- R70: the operands in the order the assembler syntax writes them. -/
def Instr.operands : Instr → List Index
  | .nop => []
  | .init => []
  | .permFull => []
  | .permRed => []
  | .absorb => []
  | .absorbSafe => []
  | .squeeze => []
  | .blkRead row col => [row, col]
  | .blkWrite row col => [row, col]
  | .seedRow0 rowOut => [rowOut]
  | .duplexRow1 rowIn rowOut => [rowIn, rowOut]
  | .duplexSetup rowIn rowInOut rowOut => [rowIn, rowInOut, rowOut]
  | .duplexWander rowIn rowInOut rowOut => [rowIn, rowInOut, rowOut]

end Sys2Proof
end

