-- ==== Sys2Proof/WellFormed.lean ====
section
/-! DEFINITION. The fields of a command word (30_encoding.md R60) and the three checks that make one legal
(R64, R65, R66), written from the opcode map and not from the decoder. Every `Instr` is well formed by its
types (an operand is exactly one 16-bit field), so the checks stand on the fields of a word. -/

namespace Sys2Proof

/-- R60: the five fields of a 64-bit command word. -/
structure RawCommand where
  /-- bits 7:0, the operation code -/
  op : BitVec 8
  /-- bits 23:8, rowIn or the row of a block access -/
  a : Index
  /-- bits 39:24, rowInOut or the column of a block access -/
  b : Index
  /-- bits 55:40, rowOut -/
  c : Index
  /-- bits 63:56, reserved -/
  rsv : BitVec 8
  deriving DecidableEq, Repr

/-- One row of the opcode map: an OP value and which of A, B and C the map marks with an operand name. -/
structure OpRow where
  op : BitVec 8
  usesA : Bool
  usesB : Bool
  usesC : Bool
  deriving DecidableEq, Repr

/-- R66: the complete opcode map. -/
def opcodeMap : List OpRow :=
  [ ⟨0x00, false, false, false⟩, ⟨0x01, false, false, false⟩, ⟨0x02, false, false, false⟩
  , ⟨0x03, false, false, false⟩, ⟨0x04, false, false, false⟩, ⟨0x05, false, false, false⟩
  , ⟨0x06, false, false, false⟩, ⟨0x08, true, true, false⟩, ⟨0x09, true, true, false⟩
  , ⟨0x10, false, false, true⟩, ⟨0x11, true, false, true⟩, ⟨0x12, true, true, true⟩
  , ⟨0x13, true, true, true⟩ ]

/-- The opcode map's row for an OP value, if it is listed. -/
def opRow (op : BitVec 8) : Option OpRow := opcodeMap.find? (fun r => r.op == op)

/-- R66: the OP value is listed; any other is reserved. -/
def RawCommand.opListed (r : RawCommand) : Bool := (opRow r.op).isSome

/-- R64: RSV is 0. -/
def RawCommand.rsvZero (r : RawCommand) : Bool := r.rsv == 0

/-- R65: every field that the opcode map marks 0 is 0. -/
def RawCommand.unusedZero (r : RawCommand) : Bool :=
  match opRow r.op with
  | none => true
  | some row => (row.usesA || r.a == 0) && (row.usesB || r.b == 0) && (row.usesC || r.c == 0)

/-- R68: the fields are those of a legal command word. -/
def RawCommand.wellFormed (r : RawCommand) : Bool := r.opListed && r.rsvZero && r.unusedZero

end Sys2Proof
end

