-- ==== Sys2Proof/Decode.lean ====
section
/-! DEFINITION. The decoder of 30_encoding.md R67, total on any 64-bit word and rejecting by name, and the
encoder written from the same opcode map (R60, R66). -/

namespace Sys2Proof

/-- The three grounds of R182 on which a command word is an ILLEGAL_OP, in the order R67 checks them. -/
inductive DecodeReject where
  /-- v[7:0] is no OP value of R66 -/
  | reservedOp (op : BitVec 8)
  /-- v[63:56] is not 0 -/
  | reservedBits
  /-- a field that the command does not use is not 0 -/
  | unusedField
  deriving DecidableEq, Repr

/-- R61: field extraction. -/
def fieldsOf (v : Word) : RawCommand :=
  { op := v.extractLsb' 0 8
    a := v.extractLsb' 8 16
    b := v.extractLsb' 24 16
    c := v.extractLsb' 40 16
    rsv := v.extractLsb' 56 8 }

/-- R67: the operations that use field A. -/
def usesA (op : BitVec 8) : Bool := [0x08, 0x09, 0x11, 0x12, 0x13].contains op

/-- R67: the operations that use field B. -/
def usesB (op : BitVec 8) : Bool := [0x08, 0x09, 0x12, 0x13].contains op

/-- R67: the operations that use field C. -/
def usesC (op : BitVec 8) : Bool := [0x10, 0x11, 0x12, 0x13].contains op

/-- R67: some field that the operation does not use is not 0. -/
def unusedNonzero (r : RawCommand) : Bool :=
  (!usesA r.op && r.a != 0) || (!usesB r.op && r.b != 0) || (!usesC r.op && r.c != 0)

/-- R62, R66: the command that an OP value selects, with the operands the opcode map gives it. -/
def commandOf (r : RawCommand) : Option Instr :=
  match r.op.toNat with
  | 0x00 => some .nop
  | 0x01 => some .init
  | 0x02 => some .permFull
  | 0x03 => some .permRed
  | 0x04 => some .absorb
  | 0x05 => some .absorbSafe
  | 0x06 => some .squeeze
  | 0x08 => some (.blkRead r.a r.b)
  | 0x09 => some (.blkWrite r.a r.b)
  | 0x10 => some (.seedRow0 r.c)
  | 0x11 => some (.duplexRow1 r.a r.c)
  | 0x12 => some (.duplexSetup r.a r.b r.c)
  | 0x13 => some (.duplexWander r.a r.b r.c)
  | _ => none

/-- R67 on the fields of a word. -/
def decodeFields (r : RawCommand) : Except DecodeReject Instr :=
  match commandOf r with
  | none => .error (.reservedOp r.op)
  | some i =>
    if r.rsv != 0 then .error .reservedBits
    else if unusedNonzero r then .error .unusedField
    else .ok i

/-- R67: the decoder. It reads no state, and every `.error` is the spec's ILLEGAL_OP. -/
def decode (v : Word) : Except DecodeReject Instr := decodeFields (fieldsOf v)

/-- R66: the fields of each command's word; every field the map marks 0 is 0, and RSV is 0. -/
def fieldsFor : Instr → RawCommand
  | .nop => ⟨0x00, 0, 0, 0, 0⟩
  | .init => ⟨0x01, 0, 0, 0, 0⟩
  | .permFull => ⟨0x02, 0, 0, 0, 0⟩
  | .permRed => ⟨0x03, 0, 0, 0, 0⟩
  | .absorb => ⟨0x04, 0, 0, 0, 0⟩
  | .absorbSafe => ⟨0x05, 0, 0, 0, 0⟩
  | .squeeze => ⟨0x06, 0, 0, 0, 0⟩
  | .blkRead row col => ⟨0x08, row, col, 0, 0⟩
  | .blkWrite row col => ⟨0x09, row, col, 0, 0⟩
  | .seedRow0 rowOut => ⟨0x10, 0, 0, rowOut, 0⟩
  | .duplexRow1 rowIn rowOut => ⟨0x11, rowIn, 0, rowOut, 0⟩
  | .duplexSetup rowIn rowInOut rowOut => ⟨0x12, rowIn, rowInOut, rowOut, 0⟩
  | .duplexWander rowIn rowInOut rowOut => ⟨0x13, rowIn, rowInOut, rowOut, 0⟩

/-- R60: the encoding pattern, most significant field first: RSV, C, B, A, OP. -/
def packFields (r : RawCommand) : Word := r.rsv ++ r.c ++ r.b ++ r.a ++ r.op

/-- R65, R69: the one 64-bit word of a command. -/
def encode (i : Instr) : Word := packFields (fieldsFor i)

/-- The command word that a row of spec/opcode_table.json gives: its low `nbits` bits are those of `w`, the rest 0.
R69: every command is one 64-bit word, so there is nothing to lay out beyond it. -/
def tableWord (nbits w : Nat) : Word := BitVec.ofNat 64 (w % 2 ^ nbits)

/-- The command that the decoder reads from that word, `none` where it is an ILLEGAL_OP. -/
def decodeTableWord (nbits w : Nat) : Option Instr := (decode (tableWord nbits w)).toOption

end Sys2Proof
end

