-- ==== Sys2Proof/Config.lean ====
section
/-! DEFINITION. What an implementation fixes (the spec's OPEN parameters) and the free values. -/

namespace Sys2Proof

/-- The spec's OPEN parameters, which a model takes as arguments (R10, R50).
The fixed type of `step` has no argument for them, so they ride in `State.params`, and no step changes them. -/
structure Params where
  /-- R10: MEM_WORDS, the number of 64-bit words of matrix storage. -/
  memWords : Word
  /-- R50: BLOCK_BASE, where the platform places the register space in the host's address map. The spec gives the
  address no width; 64 bits is a DESIGN CHOICE (log 14). -/
  blockBase : Word
  deriving DecidableEq, Repr

/-- R10: MEM_WORDS is at least 24. R50: BLOCK_BASE is 8-byte aligned. -/
def Params.legal (p : Params) : Bool :=
  decide (24 ≤ p.memWords.toNat) && decide (p.blockBase.toNat % 8 = 0)

/-- DESIGN CHOICE (log 1): the parameters that `State.reset` starts with.
The spec leaves both open; 4096 is the MEM_WORDS of its own test vectors (95_test_vectors.md), 0 is a plain base.
No statement rests on these values: every statement quantifies over `State.params`. -/
def Config.params : Params := { memWords := 4096, blockBase := 0 }

/-- R85: a host read of S[i] or D[i] while BUSY = 1 returns an unspecified 64-bit value, "a free draw,
constrained by nothing". The n-th such read returns the n-th value of this constant, which has no body (log 5). -/
opaque Config.busyRead : Nat → Word

end Sys2Proof
end

