-- ==== Sys2Proof/Machine/State.lean ====
section
/-! DEFINITION. The block's architectural state (10_state.md R17), the host's side of the bus as plain data
(40_issue.md R80), the reasons a step can stop, and the state after reset (R34, R211). -/

namespace Sys2Proof.Machine

/-- R181: the values of ERRCODE. The values 0x06 to 0xFF are never produced, so they have no constructor
(93_implementation_defined.md U12). -/
inductive ErrCode where
  /-- 0x00, the value while ERR = 0 -/
  | none
  /-- 0x01 -/
  | illegalOp
  /-- 0x02 -/
  | cfgInvalid
  /-- 0x03 -/
  | rowRange
  /-- 0x04 -/
  | colRange
  /-- 0x05 -/
  | busyWrite
  deriving DecidableEq, Repr

/-- One written word of matrix storage, with the NROWS and NCOLS it was written under.
The block does not track either (R36, R217); the model does, to fault where U1 and U5 say so (log 3, log 4). -/
structure Stored where
  value : Word
  nrows : Word
  ncols : Word
  deriving DecidableEq, Repr

/-- R32, R40: matrix storage, the words that a command has written since reset, by word address.
Addresses rise strictly; an unlisted address holds no value. A cell is a 64-bit word because the matrix word
space is addressed by words and has no bytes (log 2). -/
abbrev Memory := List (Nat × Stored)

/-- What happens at the block's boundary, in the order the bus delivers it (R53), and the sequencer's turn.
A list of these in `State.bus` says which agent of R80 moves next. A bus address is 64 bits wide (DESIGN CHOICE,
log 14). -/
inductive BusEvent where
  /-- a host write of `value` at bus address `addr`, `width` bytes wide -/
  | write (addr : Word) (width : Nat) (value : Word)
  /-- a host read at bus address `addr`, `width` bytes wide -/
  | read (addr : Word) (width : Nat)
  /-- R210: the platform asserts the reset input -/
  | reset
  /-- R80: the host makes no access and the sequencer may take its one step (R82) -/
  | sequencer
  deriving DecidableEq, Repr

/-- Why the machine stops with a fault. Both are the model's, where a block returns an unspecified value. -/
inductive Fault where
  /-- Raised by BLK_READ and the duplex commands on a read of a matrix word that no command has written since
  reset: R36 tells a model to fault here "rather than invent a value" (U1). Safe: nothing is proved of the value. -/
  | unwrittenMatrixWord (addr : Nat)
  /-- Raised by the same commands on a read of a matrix word written under another NROWS or NCOLS:
  R217 treats it "as unwritten for reading" (U5). Safe: nothing is proved of the value. -/
  | staleMatrixWord (addr : Nat)
  deriving DecidableEq, Repr

/-- Why the machine refuses a step. -/
inductive Refusal where
  /-- Raised only by an arm of `exec` whose command has no meaning yet; no arm is left so. Safe. -/
  | notModelled (mnemonic : String)
  /-- Raised by a host access that is not 64 bits wide at an 8-byte-aligned offset: "A model refuses it" (R41, U6).
  Unsafe only if a real host makes one: the model then lacks that run. -/
  | accessForm (addr : Word) (width : Nat)
  /-- Raised by a host access outside the block's 0x200 bytes of register space (R20, R40): it is no access to
  the block. Safe: the model gives it no effect to prove anything from. -/
  | outsideRegisterSpace (addr : Word)
  deriving DecidableEq, Repr

/-- R17: the whole architectural state of the block, then the model's own fields. -/
structure State where
  /-- R18: the sponge state S[0..15] -/
  S : Sponge
  /-- R19: the data buffer D[0..11] -/
  D : Block
  /-- R26: NROWS -/
  nrows : Word
  /-- R26: NCOLS -/
  ncols : Word
  /-- R24: STATUS.BUSY -/
  busy : Bool
  /-- R25: STATUS.ERR -/
  err : Bool
  /-- R25: STATUS.ERRCODE -/
  errCode : ErrCode
  /-- R28: ERRINFO -/
  errInfo : Word
  /-- R33: the pending-command slot -/
  pending : Option Word
  /-- R32: the matrix storage -/
  matrix : Memory
  /-- the model's own: the OPEN parameters MEM_WORDS and BLOCK_BASE, constants that no step changes (log 1) -/
  params : Params
  /-- the model's own: what the host and the platform do next, oldest first (log 6) -/
  bus : List BusEvent
  /-- the model's own: the values the host's reads returned, newest first (R88) -/
  reads : List Word
  /-- the model's own: how many unspecified values have been drawn (R85, log 5) -/
  draws : Nat
  deriving DecidableEq, Repr

/-- R34, R211: the state after reset, for any value of the OPEN parameters. Matrix storage is unspecified, so no
word of it has a value. -/
def State.resetWith (p : Params) : State :=
  { S := Vector.replicate 16 0
    D := Vector.replicate 12 0
    nrows := 0
    ncols := 0
    busy := false
    err := false
    errCode := .none
    errInfo := 0
    pending := none
    matrix := []
    params := p
    bus := []
    reads := []
    draws := 0 }

/-- The machine right after power-on reset, with the parameters of log 1 and a host that has done nothing. -/
def State.reset : State := State.resetWith Config.params

end Sys2Proof.Machine
end

