-- ==== Sys2Proof/Machine/Flags.lean ====
section
/-! DEFINITION. The STATUS register (10_state.md R23): its fields, and its write-1-to-clear bit. The block has
no other flags, and no command writes one as a side effect of its arithmetic (R31). -/

namespace Sys2Proof.Machine

/-- R181: the 8-bit code of each error. -/
def errBits : ErrCode → BitVec 8
  | .none => 0x00
  | .illegalOp => 0x01
  | .cfgInvalid => 0x02
  | .rowRange => 0x03
  | .colRange => 0x04
  | .busyWrite => 0x05

/-- R23: STATUS as the host reads it: BUSY bit 0, ERR bit 1, ERRCODE bits 15:8, every other bit 0. -/
def statusWord (s : State) : Word :=
  (0 : BitVec 48) ++ errBits s.errCode ++ (0 : BitVec 6) ++ BitVec.ofBool s.err ++ BitVec.ofBool s.busy

/-- R25: a value written to STATUS asks to clear the latch when its bit 1 is 1; its other bits are ignored. -/
def clearsLatch (v : Word) : Bool := v.getLsbD 1

end Sys2Proof.Machine
end

