-- ==== Sys2Proof/Machine/Operands.lean ====
section
/-! DEFINITION. The operand forms: the word and block operations of 00_scope.md R13, R14 and R102, the parts of
the sponge state (R7), the byte lanes of a register (R42), and the host register map (R20). -/

namespace Sys2Proof.Machine

/-- R13: ROTR(x, n) for 1 <= n <= 63. -/
def rotr (x : Word) (n : Nat) : Word := (x >>> n) ||| (x <<< (64 - n))

/-- R14: `X ^ Y`, wordwise exclusive or of two blocks. -/
def blockXor (X Y : Block) : Block := Vector.ofFn fun j => X[j] ^^^ Y[j]

/-- R14: `X ⊞ Y`, wordwise addition modulo 2^64 with no carry between words. -/
def blockAdd (X Y : Block) : Block := Vector.ofFn fun j => X[j] + Y[j]

/-- R14: `rotW(X)[j] = X[(j + 11) mod 12]`, a rotation of word positions, not of bits. -/
def rotW (X : Block) : Block := Vector.ofFn fun j => X[(j.val + 11) % 12]'(Nat.mod_lt _ (by decide))

/-- R7, R14: the rate S[0..11] viewed as a block. -/
def rate (S : Sponge) : Block := Vector.ofFn fun j => S[j.val]'(by omega)

/-- R98, R122: `for j in 0 .. 11: S[j] <- S[j] ^ X[j]`; the capacity S[12..15] receives no input. -/
def xorRate (S : Sponge) (X : Block) : Sponge :=
  Vector.ofFn fun j => if h : j.val < 12 then S[j] ^^^ X[j.val] else S[j]

/-- R99: `for j in 0 .. 7: S[j] <- S[j] ^ D[j]`; S[8..15] receive no input and D[8..11] are not read. -/
def xorSafeRate (S : Sponge) (X : Block) : Sponge :=
  Vector.ofFn fun j => if h : j.val < 8 then S[j] ^^^ X[j.val] else S[j]

/-- R42: byte lane k of a register is its bits [8k+7:8k]. -/
def byteLane (v : Word) (k : Nat) : Byte := v.extractLsb' (8 * k) 8

/-- R42: the eight byte lanes of a register, lane 0 (the lowest bus address) first. -/
def byteLanes (v : Word) : Vector Byte 8 := Vector.ofFn fun k => byteLane v k

/-- R42, R46: the word whose byte lanes are the given bytes, `sum over k of b_k * 2^(8k)`. -/
def wordOfLanes (b : Vector Byte 8) : Word := b[7] ++ b[6] ++ b[5] ++ b[4] ++ b[3] ++ b[2] ++ b[1] ++ b[0]

/-- R20: what the host register space holds at an 8-byte-aligned offset. -/
inductive HostReg where
  | cmd
  | status
  | errInfo
  | nrows
  | ncols
  | memWords
  | spongeWord (i : Fin 16)
  | dataWord (i : Fin 12)
  | reserved
  deriving DecidableEq, Repr

/-- R20: the register map, for an 8-byte-aligned offset below 0x200. -/
def hostReg (off : Nat) : HostReg :=
  if off = 0x000 then .cmd
  else if off = 0x008 then .status
  else if off = 0x010 then .errInfo
  else if off = 0x018 then .nrows
  else if off = 0x020 then .ncols
  else if off = 0x028 then .memWords
  else if h : 0x080 ≤ off ∧ off < 0x100 then .spongeWord ⟨(off - 0x080) / 8, by omega⟩
  else if h : 0x100 ≤ off ∧ off < 0x160 then .dataWord ⟨(off - 0x100) / 8, by omega⟩
  else .reserved

/-- R40, R41, R50: the byte offset of a host access in the register space, or why the model has no move for it.
DESIGN CHOICE (log 14): the spec gives a host bus address no width. It is 64 bits here, and the offset is
addr - BLOCK_BASE modulo 2^64, so a space placed in the last 0x200 bytes of the map goes on at address 0. -/
def accessOffset (p : Params) (addr : Word) (width : Nat) : Except Refusal Nat :=
  let off := (addr - p.blockBase).toNat
  if 0x200 ≤ off then .error (.outsideRegisterSpace addr)
  else if width ≠ 8 ∨ off % 8 ≠ 0 then .error (.accessForm addr width)
  else .ok off

end Sys2Proof.Machine
end

