-- ==== Sys2Proof/Machine/Ops.lean ====
section
/-! DEFINITION. The named operations over the matrix and the registers: matrix storage and its indexer
(20_memory.md R43, 00_scope.md R15), raising and clearing an error (60_exceptions.md R186, R191), the checks that
precede every matrix command (40_issue.md R82), and the column loop of the duplex commands (43_duplex.md R120). -/

namespace Sys2Proof.Machine

/-! ### Matrix storage -/

/-- The canonical form of matrix storage: addresses rise strictly. -/
abbrev Memory.wf (m : Memory) : Prop := m.Pairwise fun x y => x.1 < y.1

/-- What a word address holds; `none` for a word that no command has written since reset (R36). -/
def Memory.lookup : Memory → Nat → Option Stored
  | [], _ => none
  | (b, w) :: m, a => if a = b then some w else Memory.lookup m a

/-- Write one word, keeping the canonical form. -/
def Memory.store : Memory → Nat → Stored → Memory
  | [], a, w => [(a, w)]
  | (b, x) :: m, a, w =>
    if a < b then (a, w) :: (b, x) :: m
    else if a = b then (a, w) :: m
    else (b, x) :: Memory.store m a w

/-- Write consecutive words from an address upwards. -/
def Memory.storeAll : Memory → Nat → List Stored → Memory
  | m, _, [] => m
  | m, a, w :: ws => Memory.storeAll (Memory.store m a w) (a + 1) ws

/-- Whether a stored word may be read: it was written under the current NROWS and NCOLS (R217, U5; log 4). -/
def current (s : State) (w : Stored) : Bool := w.nrows == s.nrows && w.ncols == s.ncols

/-- Read one word of matrix storage. A word that no command has written since reset faults (R36, U1), and so does
one written under another configuration (R217, U5). -/
def readWord (s : State) (a : Nat) : Except Fault Word :=
  match Memory.lookup s.matrix a with
  | none => .error (.unwrittenMatrixWord a)
  | some w => if current s w then .ok w.value else .error (.staleMatrixWord a)

/-- R15: MemRead(addr, n), the n words at addresses addr .. addr+n-1, in order. -/
def memRead (s : State) : (a n : Nat) → Except Fault (Vector Word n)
  | _, 0 => .ok #v[]
  | a, n + 1 =>
    match readWord s a with
    | .error f => .error f
    | .ok w =>
      match memRead s (a + 1) n with
      | .error f => .error f
      | .ok v => .ok ((#v[w] ++ v).cast (Nat.add_comm 1 n))

/-- R15: MemWrite(addr, n, v), under the current NROWS and NCOLS. -/
def memWrite (s : State) (a : Nat) (v : List Word) : State :=
  { s with matrix := Memory.storeAll s.matrix a (v.map fun w => { value := w, nrows := s.nrows, ncols := s.ncols }) }

/-- R43: cellAddr(r, c) = (r * NCOLS + c) * 12, an exact product, under the NCOLS current when a command executes. -/
def cellAddr (s : State) (r c : Nat) : Nat := (r * s.ncols.toNat + c) * 12

/-- R15: Cell(r, c). -/
def readCell (s : State) (r c : Nat) : Except Fault Block := memRead s (cellAddr s r c) 12

/-- R15: SetCell(r, c, X). -/
def writeCell (s : State) (r c : Nat) (X : Block) : State := memWrite s (cellAddr s r c) X.toList

/-! ### Registers -/

/-- S <- S'. -/
def State.withS (s : State) (S : Sponge) : State := { s with S := S }

/-- D <- D'. -/
def State.withD (s : State) (D : Block) : State := { s with D := D }

/-! ### Raising an error, and clearing it -/

/-- R186, the block's one way to take an exception: latch the code and the information of the first error.
There is no program counter, mode or vector to save or change (R190); S, D, NROWS, NCOLS and the matrix stay. -/
def raise (code : ErrCode) (info : Word) (s : State) : State :=
  if s.err then s else { s with err := true, errCode := code, errInfo := info }

/-- R191, R25, the return from an error: the latch is cleared, and nothing else is restored. -/
def clearError (s : State) : State := { s with err := false, errCode := .none, errInfo := 0 }

/-! ### The pending-command slot -/

/-- R81: `pending <- v ; BUSY <- 1`. -/
def accept (v : Word) (s : State) : State := { s with pending := some v, busy := true }

/-- R82: `pending <- empty ; BUSY <- 0`, the end of every command, completed or failed. -/
def retire (s : State) : State := { s with pending := none, busy := false }

/-! ### The checks before a matrix command -/

/-- R183: cfgValid(). The product is exact. -/
def cfgValid (s : State) : Bool :=
  s.nrows != 0 && s.nrows &&& (s.nrows - 1) == 0 && decide (s.nrows.toNat ≤ 65536)
    && decide (1 ≤ s.ncols.toNat) && decide (s.ncols.toNat ≤ 65536)
    && decide (s.nrows.toNat * s.ncols.toNat * 12 ≤ s.params.memWords.toNat)

/-- R184: a row operand is in range. The index is zero-extended and neither masked nor wrapped (R63, R110). -/
def rowInRange (s : State) (r : Index) : Bool := decide (r.toNat < s.nrows.toNat)

/-- R185: a column operand is in range. -/
def colInRange (s : State) (c : Index) : Bool := decide (c.toNat < s.ncols.toNat)

/-- The outcome of a command whose checks have passed. -/
def performed : Except Fault State → Host.Outcome State Fault Refusal
  | .ok t => .next t
  | .error f => .fault f

/-- R82, R188: the checks of a matrix command, in their order, then `perform`. Every check runs before any write.
ERRINFO is the complete command word, the one word that encodes the command (R28, R65). -/
def matrixCommand (i : Instr) (rows cols : List Index) (perform : State → Except Fault State) (s : State) :
    Host.Outcome State Fault Refusal :=
  if !cfgValid s then .next (raise .cfgInvalid (encode i) s)
  else if !rows.all (rowInRange s) then .next (raise .rowRange (encode i) s)
  else if !cols.all (colInRange s) then .next (raise .colRange (encode i) s)
  else performed (perform s)

/-- R15, R120: `for c in 0 .. n-1`, each iteration finishing before the next begins. -/
def forColumns (body : Nat → State → Except Fault State) : Nat → State → Except Fault State
  | 0, s => .ok s
  | n + 1, s =>
    match forColumns body n s with
    | .error f => .error f
    | .ok t => body n t

/-- R120: bind a snapshot of a cell, then go on with it. -/
def withCell (s : State) (r c : Nat) (k : Block → Except Fault State) : Except Fault State :=
  match readCell s r c with
  | .error f => .error f
  | .ok X => k X

end Sys2Proof.Machine
end

