-- ==== Sys2Proof/Machine/HostBus.lean ====
section
/-! DEFINITION. What the host's accesses and the platform's reset do (10_state.md R20 to R29, 40_issue.md R81 to
R85, 70_reset_and_hazards.md R210). A register offset here is 8-byte aligned and below 0x200. -/

namespace Sys2Proof.Machine

/-- R81, R83: a CMD write while idle issues the command, or discards it while an error is latched. -/
def writeCmd (v : Word) (s : State) : State := if s.err then s else accept v s

/-- R25: a STATUS write while idle clears the latch when bit 1 is 1, and otherwise changes nothing. -/
def writeStatus (v : Word) (s : State) : State := if clearsLatch v then clearError s else s

/-- R21: a host write while the block is idle. -/
def writeIdle (r : HostReg) (v : Word) (s : State) : State :=
  match r with
  | .cmd => writeCmd v s
  | .status => writeStatus v s
  | .errInfo => s
  | .nrows => { s with nrows := v }
  | .ncols => { s with ncols := v }
  | .memWords => s
  | .spongeWord i => s.withS (s.S.set i v)
  | .dataWord i => s.withD (s.D.set i v)
  | .reserved => s

/-- R84, R187: a host write at any offset while BUSY = 1 is ignored, and latches BUSY_WRITE if ERR = 0. -/
def writeBusy (off : Nat) (s : State) : State := raise .busyWrite (BitVec.ofNat 64 off) s

/-- A host write of a 64-bit value at a register offset. -/
def hostWrite (off : Nat) (v : Word) (s : State) : State :=
  if s.busy then writeBusy off s else writeIdle (hostReg off) v s

/-- R21: a host read while the block is idle: the register's current value; CMD and reserved offsets read 0. -/
def readIdle (r : HostReg) (s : State) : Word :=
  match r with
  | .cmd => 0
  | .status => statusWord s
  | .errInfo => s.errInfo
  | .nrows => s.nrows
  | .ncols => s.ncols
  | .memWords => s.params.memWords
  | .spongeWord i => s.S[i]
  | .dataWord i => s.D[i]
  | .reserved => 0

/-- R85: only S[i] and D[i] are unspecified while BUSY = 1. -/
def readsUnspecified (r : HostReg) : Bool :=
  match r with
  | .cmd => false
  | .status => false
  | .errInfo => false
  | .nrows => false
  | .ncols => false
  | .memWords => false
  | .spongeWord _ => true
  | .dataWord _ => true
  | .reserved => false

/-- A host read at a register offset: its value is added to `reads`, and nothing of the block changes (R49).
While BUSY = 1 a read of S[i] or D[i] returns a free draw (R85, log 5). -/
def hostRead (off : Nat) (s : State) : State :=
  if s.busy && readsUnspecified (hostReg off) then
    { s with reads := Config.busyRead s.draws :: s.reads, draws := s.draws + 1 }
  else { s with reads := readIdle (hostReg off) s :: s.reads }

/-- R210 to R213: reset is one atomic transition, also while a command is pending. It gives every piece of state
the value of R34 and leaves the matrix unspecified; what the host has still to do and has read is not the block's. -/
def resetBlock (s : State) : State :=
  { State.resetWith s.params with bus := s.bus, reads := s.reads, draws := s.draws }

/-- The next state of a host access whose form is that of R41; any other is refused. -/
def atOffset (addr : Word) (width : Nat) (act : Nat → State → State) (s : State) :
    Host.Outcome State Fault Refusal :=
  match accessOffset s.params addr width with
  | .error r => .refused r
  | .ok off => .next (act off s)

end Sys2Proof.Machine
end

