-- ==== Sys2Proof/Machine/Control.lean ====
section
/-! DEFINITION. The one control command (44_control.md R140). -/

namespace Sys2Proof.Machine

/-- R140: NOP has no effect. -/
def execNop (s : State) : Host.Outcome State Fault Refusal := .next s

end Sys2Proof.Machine
end

