-- ==== Sys2Proof/Machine/Permutation.lean ====
section
/-! DEFINITION. The Blake2b G function, the round and the two permutations (41_sponge.md R90 to R94). -/

namespace Sys2Proof.Machine

/-- R90: the Blake2b G function, the plain one without message words or multiplication. -/
def mix (a b c d : Word) : Word × Word × Word × Word :=
  let a := a + b
  let d := rotr (d ^^^ a) 32
  let c := c + d
  let b := rotr (b ^^^ c) 24
  let a := a + b
  let d := rotr (d ^^^ a) 16
  let c := c + d
  let b := rotr (b ^^^ c) 63
  (a, b, c, d)

/-- Four state indices that one mix call reads and writes back. -/
abbrev MixGroup := Fin 16 × Fin 16 × Fin 16 × Fin 16

/-- R91: the column step's four calls, in order. -/
def columnGroups : List MixGroup := [(0, 4, 8, 12), (1, 5, 9, 13), (2, 6, 10, 14), (3, 7, 11, 15)]

/-- R91: the diagonal step's four calls, in order. -/
def diagonalGroups : List MixGroup := [(0, 5, 10, 15), (1, 6, 11, 12), (2, 7, 8, 13), (3, 4, 9, 14)]

/-- R91: `(S[i], S[j], S[k], S[l]) <- mix(S[i], S[j], S[k], S[l])`. -/
def mixAt (S : Sponge) (g : MixGroup) : Sponge :=
  match g with
  | (i, j, k, l) =>
    match mix S[i] S[j] S[k] S[l] with
    | (a, b, c, d) => (((S.set i a).set j b).set k c).set l d

/-- R91: each call's results are written back before the next call reads the state. -/
def mixAll (S : Sponge) (gs : List MixGroup) : Sponge := gs.foldl mixAt S

/-- R91: one round, the column step and then the diagonal step. -/
def spongeRound (S : Sponge) : Sponge := mixAll (mixAll S columnGroups) diagonalGroups

/-- The round applied n times in succession. -/
def rounds : Nat → Sponge → Sponge
  | 0, S => S
  | n + 1, S => rounds n (spongeRound S)

/-- R92: the full permutation is the round applied exactly 12 times. -/
def fullPermutation (S : Sponge) : Sponge := rounds 12 S

/-- R93: the reduced permutation is the round applied exactly once. -/
def reducedPermutation (S : Sponge) : Sponge := rounds 1 S

/-- R94: the Blake2b IV constants. PRESUMED (log 7): the spec marks the table as general knowledge (G1). -/
def iv : Vector Word 8 :=
  #v[0x6a09e667f3bcc908, 0xbb67ae8584caa73b, 0x3c6ef372fe94f82b, 0xa54ff53a5f1d36f1,
     0x510e527fade682d1, 0x9b05688c2b3e6c1f, 0x1f83d9abfb41bd6b, 0x5be0cd19137e2179]

/-- R95: the INIT state, eight zero words and then the IV. -/
def initSponge : Sponge := Vector.ofFn fun i => if h : i.val < 8 then 0 else iv[i.val - 8]'(by omega)

end Sys2Proof.Machine
end

