-- ==== Sys2Proof/Machine/Duplex.lean ====
section
/-! DEFINITION. The four duplex primitives (43_duplex.md R121 to R124). Each body is one column c of the
pseudocode, with its reads and writes in the order written (R120), so coinciding rows need no case of their own.
N is the NCOLS current when the command executes. -/

namespace Sys2Proof.Machine

/-- R121, one column: write the state as it stands to column N-1-c, then permute. -/
def seedColumn (rowOut n c : Nat) (s : State) : Except Fault State :=
  let s := writeCell s rowOut (n - 1 - c) (rate s.S)
  .ok (s.withS (reducedPermutation s.S))

/-- R122, one column. Nothing is fed back into rowIn (R126). -/
def row1Column (rowIn rowOut n c : Nat) (s : State) : Except Fault State :=
  withCell s rowIn c fun X =>
    let s := s.withS (reducedPermutation (xorRate s.S X))
    .ok (writeCell s rowOut (n - 1 - c) (blockXor X (rate s.S)))

/-- R123, one column; rowInOut is read again after the write to rowOut. -/
def setupColumn (rowIn rowInOut rowOut n c : Nat) (s : State) : Except Fault State :=
  withCell s rowIn c fun X =>
    withCell s rowInOut c fun Y =>
      let s := s.withS (reducedPermutation (xorRate s.S (blockAdd X Y)))
      let s := writeCell s rowOut (n - 1 - c) (blockXor X (rate s.S))
      withCell s rowInOut c fun Z => .ok (writeCell s rowInOut c (blockXor Z (rotW (rate s.S))))

/-- R124, one column; every access is to column c. -/
def wanderColumn (rowIn rowInOut rowOut c : Nat) (s : State) : Except Fault State :=
  withCell s rowIn c fun X =>
    withCell s rowInOut c fun Y =>
      let s := s.withS (reducedPermutation (xorRate s.S (blockAdd X Y)))
      withCell s rowOut c fun W =>
        let s := writeCell s rowOut c (blockXor W (rate s.S))
        withCell s rowInOut c fun Z => .ok (writeCell s rowInOut c (blockXor Z (rotW (rate s.S))))

/-- R121: SEED_ROW0 rowOut. -/
def execSeedRow0 (rowOut : Index) (s : State) : Host.Outcome State Fault Refusal :=
  matrixCommand (.seedRow0 rowOut) [rowOut] []
    (fun s => forColumns (seedColumn rowOut.toNat s.ncols.toNat) s.ncols.toNat s) s

/-- R122: DUPLEX_ROW1 rowIn, rowOut. -/
def execDuplexRow1 (rowIn rowOut : Index) (s : State) : Host.Outcome State Fault Refusal :=
  matrixCommand (.duplexRow1 rowIn rowOut) [rowIn, rowOut] []
    (fun s => forColumns (row1Column rowIn.toNat rowOut.toNat s.ncols.toNat) s.ncols.toNat s) s

/-- R123: DUPLEX_SETUP rowIn, rowInOut, rowOut. -/
def execDuplexSetup (rowIn rowInOut rowOut : Index) (s : State) : Host.Outcome State Fault Refusal :=
  matrixCommand (.duplexSetup rowIn rowInOut rowOut) [rowIn, rowInOut, rowOut] []
    (fun s => forColumns (setupColumn rowIn.toNat rowInOut.toNat rowOut.toNat s.ncols.toNat) s.ncols.toNat s) s

/-- R124: DUPLEX_WANDER rowIn, rowInOut, rowOut. -/
def execDuplexWander (rowIn rowInOut rowOut : Index) (s : State) : Host.Outcome State Fault Refusal :=
  matrixCommand (.duplexWander rowIn rowInOut rowOut) [rowIn, rowInOut, rowOut] []
    (fun s => forColumns (wanderColumn rowIn.toNat rowInOut.toNat rowOut.toNat) s.ncols.toNat s) s

end Sys2Proof.Machine
end

