-- ==== Sys2Proof/Machine/Matrix.lean ====
section
/-! DEFINITION. The block port of the memory matrix (42_matrix_port.md R111, R112). -/

namespace Sys2Proof.Machine

/-- R111: BLK_READ row, col copies one cell into D. -/
def execBlkRead (row col : Index) (s : State) : Host.Outcome State Fault Refusal :=
  matrixCommand (.blkRead row col) [row] [col]
    (fun s => withCell s row.toNat col.toNat fun X => .ok (s.withD X)) s

/-- R112: BLK_WRITE row, col copies D into one cell. -/
def execBlkWrite (row col : Index) (s : State) : Host.Outcome State Fault Refusal :=
  matrixCommand (.blkWrite row col) [row] [col]
    (fun s => .ok (writeCell s row.toNat col.toNat s.D)) s

end Sys2Proof.Machine
end

