-- ==== Sys2Proof/Machine/Sponge.lean ====
section
/-! DEFINITION. The six sponge commands (41_sponge.md R95 to R100). None reads NROWS or NCOLS, touches the matrix
or can fail once decoded. -/

namespace Sys2Proof.Machine

/-- R95: INIT. -/
def execInit (s : State) : Host.Outcome State Fault Refusal := .next (s.withS initSponge)

/-- R96: PERM_FULL. -/
def execPermFull (s : State) : Host.Outcome State Fault Refusal := .next (s.withS (fullPermutation s.S))

/-- R97: PERM_RED. -/
def execPermRed (s : State) : Host.Outcome State Fault Refusal := .next (s.withS (reducedPermutation s.S))

/-- R98: ABSORB. -/
def execAbsorb (s : State) : Host.Outcome State Fault Refusal :=
  .next (s.withS (fullPermutation (xorRate s.S s.D)))

/-- R99: ABSORB_SAFE. -/
def execAbsorbSafe (s : State) : Host.Outcome State Fault Refusal :=
  .next (s.withS (fullPermutation (xorSafeRate s.S s.D)))

/-- R100: SQUEEZE copies the rate to D, then always permutes (D38). -/
def execSqueeze (s : State) : Host.Outcome State Fault Refusal :=
  .next ((s.withD (rate s.S)).withS (fullPermutation s.S))

end Sys2Proof.Machine
end

