-- ==== Sys2Proof/Machine/Dispatch.lean ====
section
/-! DEFINITION. One arm per command of 30_encoding.md R66: the checks and `perform` of 40_issue.md R82. -/

namespace Sys2Proof.Machine

def exec (i : Instr) (s : State) : Host.Outcome State Fault Refusal :=
  match i with
  | .nop => Sys2Proof.Machine.execNop s
  | .init => Sys2Proof.Machine.execInit s
  | .permFull => Sys2Proof.Machine.execPermFull s
  | .permRed => Sys2Proof.Machine.execPermRed s
  | .absorb => Sys2Proof.Machine.execAbsorb s
  | .absorbSafe => Sys2Proof.Machine.execAbsorbSafe s
  | .squeeze => Sys2Proof.Machine.execSqueeze s
  | .blkRead row col => Sys2Proof.Machine.execBlkRead row col s
  | .blkWrite row col => Sys2Proof.Machine.execBlkWrite row col s
  | .seedRow0 rowOut => Sys2Proof.Machine.execSeedRow0 rowOut s
  | .duplexRow1 rowIn rowOut => Sys2Proof.Machine.execDuplexRow1 rowIn rowOut s
  | .duplexSetup rowIn rowInOut rowOut => Sys2Proof.Machine.execDuplexSetup rowIn rowInOut rowOut s
  | .duplexWander rowIn rowInOut rowOut => Sys2Proof.Machine.execDuplexWander rowIn rowInOut rowOut s

end Sys2Proof.Machine
end

