-- ==== Sys2Proof/Machine/Sequencer.lean ====
section
/-! DEFINITION. The sequencer's one step (40_issue.md R82). -/

namespace Sys2Proof.Machine

/-- R82: whatever the command did, the slot empties and BUSY becomes 0. -/
def retired (o : Host.Outcome State Fault Refusal) : Host.Outcome State Fault Refusal :=
  match o with
  | .next t => .next (retire t)
  | .fault f => .fault f
  | .refused r => .refused r

/-- R82: decode the pending word, check and perform it, as one indivisible transition. -/
def runCommand (v : Word) (s : State) : Host.Outcome State Fault Refusal :=
  match decode v with
  | .error _ => retired (.next (raise .illegalOp v s))
  | .ok i => retired (exec i s)

/-- R80, R82: the sequencer's step, enabled when the pending slot is full; a block with an empty slot holds all its
state (R199). -/
def sequencerStep (s : State) : Host.Outcome State Fault Refusal :=
  match s.pending with
  | none => .next s
  | some v => runCommand v s

end Sys2Proof.Machine
end

