-- ==== Sys2Proof/Machine/Step.lean ====
section
/-! DEFINITION. One step of the block and its bus (40_issue.md R80). The next event of `State.bus` says who moves:
the host with one access, the platform with a reset, or the sequencer. When the host has nothing more to do the
sequencer moves, so a full slot is always emptied in the end (R86). -/

namespace Sys2Proof.Machine

def step (s : State) : Host.Outcome State Fault Refusal :=
  match s.bus with
  | [] => sequencerStep s
  | .sequencer :: rest => sequencerStep { s with bus := rest }
  | .reset :: rest => .next (resetBlock { s with bus := rest })
  | .write addr width v :: rest => atOffset addr width (fun off s => hostWrite off v s) { s with bus := rest }
  | .read addr width :: rest => atOffset addr width hostRead { s with bus := rest }

/-- The command word of spec/opcode_table.json's row placed in the pending slot, as an accepted CMD write leaves it
(R81), and the sequencer's turn put next. -/
def State.withFetchWord (s : State) (nbits w : Nat) : State :=
  { s with pending := some (tableWord nbits w), busy := true, bus := .sequencer :: s.bus }

end Sys2Proof.Machine
end

