-- ==== Sys2Proof/Safety.lean ====
section
/-! DEFINITION. What counts as a good state and a safe run of the block, and the frames in terms of which claims
are stated: which words of the matrix a command can reach (20_memory.md R44), which can be read, and which state a
command may change. -/

namespace Sys2Proof.Machine

/-! ### The invariant -/

/-- What holds of every state that a run reaches: matrix storage is in its canonical form and lists only word
addresses below MEM_WORDS (R32, R110), BUSY = 1 exactly while the slot is full (R33), and the latch is all clear or
holds an error (R25). -/
structure GoodState (s : State) : Prop where
  matrixCanonical : Memory.wf s.matrix
  matrixInside : ∀ e ∈ s.matrix, e.1 < s.params.memWords.toNat
  busyIffPending : s.busy = s.pending.isSome
  latchClear : s.err = false → s.errCode = .none ∧ s.errInfo = 0
  latchSet : s.err = true → s.errCode ≠ .none

/-- A step that neither faults nor is refused. -/
def Proceeds (s : State) : Prop := ∃ t, step s = .next t

/-- n steps, none of which faults or is refused, lead from s to t. -/
inductive SafeRun : Nat → State → State → Prop where
  | done (s : State) : SafeRun 0 s s
  | step {n : Nat} {s t u : State} (first : Machine.step s = .next t) (rest : SafeRun n t u) : SafeRun (n + 1) s u

/-- R88: a run is over when the host has made its last access and the pending slot is empty.
DESIGN CHOICE (log 17): R88 does not say what a platform reset or a turn of the sequencer still to come after that last
access does to the end of the run. Here the run goes on until `State.bus` is wholly empty, so a reset listed last is
part of it and the final state is the one after that reset. -/
def RunOver (s : State) : Prop := s.bus = [] ∧ s.busy = false

/-! ### Words, cells and rows of the matrix -/

/-- The word address lies in cell (r, c) under the current NCOLS (R43). -/
def inCell (s : State) (r c a : Nat) : Prop := cellAddr s r c ≤ a ∧ a < cellAddr s r c + 12

/-- The word address lies in row r under the current NCOLS (R43). -/
def inRow (s : State) (r a : Nat) : Prop := ∃ c, c < s.ncols.toNat ∧ inCell s r c a

/-- A command has written the word since reset, under the current NROWS and NCOLS (R36, R217). -/
def WordWritten (s : State) (a : Nat) : Prop := ∃ w, readWord s a = .ok w

/-- Every word of cell (r, c) is written. -/
def CellWritten (s : State) (r c : Nat) : Prop := ∀ j, j < 12 → WordWritten s (cellAddr s r c + j)

/-- Every cell of row r is written. -/
def RowWritten (s : State) (r : Nat) : Prop := ∀ c, c < s.ncols.toNat → CellWritten s r c

/-- Every cell of row r is written that a command reads before it has itself written it, where the command writes
row `rowOut` from the last column down to column 0 (R122, R123). In another row that is every cell; in row `rowOut`
itself column c is read after c columns are written, so it is the cells of the columns c < N - c. -/
def WrittenWhereReadFirst (s : State) (r rowOut : Nat) : Prop :=
  ∀ c, c < s.ncols.toNat → (r = rowOut → c < s.ncols.toNat - c) → CellWritten s r c

/-- Every word of the matrix outside the given addresses is as before. -/
def SameOutside (s t : State) (changed : Nat → Prop) : Prop :=
  ∀ a, ¬ changed a → Memory.lookup t.matrix a = Memory.lookup s.matrix a

/-! ### Frames -/

/-- Only S, D and the matrix may differ: NROWS, NCOLS, BUSY, the latch, the slot and the host's side are as before. -/
def OnlyDatapath (s t : State) : Prop := t = { s with S := t.S, D := t.D, matrix := t.matrix }

/-- Only S may differ. -/
def OnlyS (s t : State) : Prop := t = { s with S := t.S }

/-- Only S and the matrix may differ. -/
def OnlySMatrix (s t : State) : Prop := t = { s with S := t.S, matrix := t.matrix }

/-- The states between the columns of a duplex command: `st c` is the state after c columns, and `column c` relates
it to the next. -/
def ColumnRun (column : Nat → State → State → Prop) (n : Nat) (s t : State) : Prop :=
  ∃ st : Nat → State, st 0 = s ∧ st n = t ∧ ∀ c, c < n → column c (st c) (st (c + 1))

/-- From u to v, one cell is set to X and nothing else changes (R15: SetCell). -/
def CellSet (u v : State) (r c : Nat) (X : Block) : Prop :=
  readCell v r c = .ok X ∧ SameOutside u v (inCell u r c) ∧ v = { u with matrix := v.matrix }

/-! ### The operands and the reach of each command, as the spec's tables give them -/

/-- R184: the row operands of each command; only the matrix commands have any. -/
def rowOperands : Instr → List Index
  | .nop => []
  | .init => []
  | .permFull => []
  | .permRed => []
  | .absorb => []
  | .absorbSafe => []
  | .squeeze => []
  | .blkRead row _ => [row]
  | .blkWrite row _ => [row]
  | .seedRow0 rowOut => [rowOut]
  | .duplexRow1 rowIn rowOut => [rowIn, rowOut]
  | .duplexSetup rowIn rowInOut rowOut => [rowIn, rowInOut, rowOut]
  | .duplexWander rowIn rowInOut rowOut => [rowIn, rowInOut, rowOut]

/-- R185: the column operand of BLK_READ and BLK_WRITE; no other command has one. -/
def colOperands : Instr → List Index
  | .nop => []
  | .init => []
  | .permFull => []
  | .permRed => []
  | .absorb => []
  | .absorbSafe => []
  | .squeeze => []
  | .blkRead _ col => [col]
  | .blkWrite _ col => [col]
  | .seedRow0 _ => []
  | .duplexRow1 _ _ => []
  | .duplexSetup _ _ _ => []
  | .duplexWander _ _ _ => []

/-- R44: the rows of which each command reads a cell (BLK_READ) or every cell (the duplex commands). -/
def readRows : Instr → List Index
  | .nop => []
  | .init => []
  | .permFull => []
  | .permRed => []
  | .absorb => []
  | .absorbSafe => []
  | .squeeze => []
  | .blkRead row _ => [row]
  | .blkWrite _ _ => []
  | .seedRow0 _ => []
  | .duplexRow1 rowIn _ => [rowIn]
  | .duplexSetup rowIn rowInOut _ => [rowIn, rowInOut]
  | .duplexWander rowIn rowInOut rowOut => [rowIn, rowInOut, rowOut]

/-- R44: the matrix words that each command may write. -/
def writesTo (s : State) (i : Instr) (a : Nat) : Prop :=
  match i with
  | .nop => False
  | .init => False
  | .permFull => False
  | .permRed => False
  | .absorb => False
  | .absorbSafe => False
  | .squeeze => False
  | .blkRead _ _ => False
  | .blkWrite row col => inCell s row.toNat col.toNat a
  | .seedRow0 rowOut => inRow s rowOut.toNat a
  | .duplexRow1 _ rowOut => inRow s rowOut.toNat a
  | .duplexSetup _ rowInOut rowOut => inRow s rowOut.toNat a ∨ inRow s rowInOut.toNat a
  | .duplexWander _ rowInOut rowOut => inRow s rowOut.toNat a ∨ inRow s rowInOut.toNat a

/-- The commands that may change S; the others are NOP, BLK_READ and BLK_WRITE. -/
def changesS : Instr → Bool
  | .nop => false
  | .init => true
  | .permFull => true
  | .permRed => true
  | .absorb => true
  | .absorbSafe => true
  | .squeeze => true
  | .blkRead _ _ => false
  | .blkWrite _ _ => false
  | .seedRow0 _ => true
  | .duplexRow1 _ _ => true
  | .duplexSetup _ _ _ => true
  | .duplexWander _ _ _ => true

/-- R19, R216: the commands that may change D. -/
def changesD : Instr → Bool
  | .nop => false
  | .init => false
  | .permFull => false
  | .permRed => false
  | .absorb => false
  | .absorbSafe => false
  | .squeeze => true
  | .blkRead _ _ => true
  | .blkWrite _ _ => false
  | .seedRow0 _ => false
  | .duplexRow1 _ _ => false
  | .duplexSetup _ _ _ => false
  | .duplexWander _ _ _ => false

/-- R182, on the bits of a command word: the grounds on which it is illegal. -/
def IllegalWord (v : Word) : Prop :=
  let op := (v.extractLsb' 0 8).toNat
  (op = 0x07 ∨ (0x0A ≤ op ∧ op ≤ 0x0F) ∨ 0x14 ≤ op) ∨
  v.extractLsb' 56 8 ≠ 0 ∨
  (op ∉ [0x08, 0x09, 0x11, 0x12, 0x13] ∧ v.extractLsb' 8 16 ≠ 0) ∨
  (op ∉ [0x08, 0x09, 0x12, 0x13] ∧ v.extractLsb' 24 16 ≠ 0) ∨
  (op ∉ [0x10, 0x11, 0x12, 0x13] ∧ v.extractLsb' 40 16 ≠ 0)

/-! ### Whose turn it is, and where a host access lands -/

/-- R80: the next step is the sequencer's. -/
def SequencersTurn (s : State) : Prop := s.bus = [] ∨ s.bus.head? = some .sequencer

/-- R41, R50: the bus address is that of the aligned offset `off` of the block's register space, in the 64-bit
address arithmetic of log 14. -/
def AccessAt (s : State) (addr : Word) (off : Nat) : Prop :=
  (addr - s.params.blockBase).toNat = off ∧ off < 0x200 ∧ off % 8 = 0

end Sys2Proof.Machine
end

