-- ==== Sys2Proof/Certificates/Slice0/Obligations.lean ====
section
/-! DEFINITION. The statements for the provers, each with the rule of the spec it comes from. -/

open Sys2Proof Sys2Proof.Machine

/-! ### Encoding (30_encoding.md) -/

/-- R65, R67: decoding the word of a command gives the command back, for every command and every operand. -/
def Obligations.EncodeThenDecodeGivesCommand : Prop :=
  ∀ i : Instr, decode (encode i) = .ok i

/-- R65: "every legal command has exactly one encoding for each choice of its operands": a word that decodes to a
command is that command's word. -/
def Obligations.DecodedWordIsItsEncoding : Prop :=
  ∀ (v : Word) (i : Instr), decode v = .ok i → encode i = v

/-- R67, R68, R182: the decoder rejects exactly the words with a reserved OP, a nonzero RSV or a nonzero unused
field. -/
def Obligations.DecodeRejectsExactlyIllegalWords : Prop :=
  ∀ v : Word, (∃ e, decode v = .error e) ↔ IllegalWord v

/-- R72: the worked encodings decode to their commands, and the illegal examples to none. A sanity statement. -/
def Obligations.WorkedEncodingsDecode : Prop :=
  decode 0x0000000000000000 = .ok .nop ∧
  decode 0x0000000000000001 = .ok .init ∧
  decode 0x0000000000000005 = .ok .absorbSafe ∧
  decode 0x0000000000000006 = .ok .squeeze ∧
  decode 0x0000000000000108 = .ok (.blkRead 1 0) ∧
  decode 0x0000000002000309 = .ok (.blkWrite 3 2) ∧
  decode 0x0000000000000010 = .ok (.seedRow0 0) ∧
  decode 0x0000010000000011 = .ok (.duplexRow1 0 1) ∧
  decode 0x0000020000000112 = .ok (.duplexSetup 1 0 2) ∧
  decode 0x0000030001000212 = .ok (.duplexSetup 2 1 3) ∧
  decode 0x0000000002000313 = .ok (.duplexWander 3 2 0) ∧
  decode 0x0000010001000013 = .ok (.duplexWander 0 1 1) ∧
  decode 0x00FFFFFFFFFFFF13 = .ok (.duplexWander 65535 65535 65535) ∧
  (∃ e, decode 0x0000000000000007 = .error e) ∧
  (∃ e, decode 0x0100000000000001 = .error e) ∧
  (∃ e, decode 0x0000000000000101 = .error e) ∧
  (∃ e, decode 0x0000000001000010 = .error e)

/-! ### The sequencer's step (40_issue.md R80 to R89) -/

/-- R82: when it is the sequencer's turn (log 6) and the pending word decodes to a command, the step is the command's
meaning, run with the turn taken off the bus, and then the slot empties and BUSY becomes 0, whatever the command did,
and nothing else changes. Where the command faults (log 3, log 4) the step faults alike. -/
def Obligations.StepRunsDecodedCommand : Prop :=
  ∀ (s : State) (v : Word) (i : Instr), SequencersTurn s → s.pending = some v → decode v = .ok i →
    (∀ t, exec i { s with bus := s.bus.tail } = .next t → step s = .next { t with pending := none, busy := false }) ∧
    (∀ f, exec i { s with bus := s.bus.tail } = .fault f → step s = .fault f) ∧
    (∀ r, exec i { s with bus := s.bus.tail } = .refused r → step s = .refused r)

/-- R82, R182, R186: on the sequencer's turn (log 6) a pending word that is illegal is discarded: the slot empties and
BUSY becomes 0 (R82). It latches ILLEGAL_OP (R182) with the command word if no error was latched (R186), and nothing
else changes. -/
def Obligations.IllegalWordLatchesIllegalOp : Prop :=
  ∀ (s : State) (v : Word), SequencersTurn s → s.pending = some v → IllegalWord v →
    step s = .next (if s.err then { s with bus := s.bus.tail, pending := none, busy := false }
      else { s with bus := s.bus.tail, pending := none, busy := false,
                    err := true, errCode := .illegalOp, errInfo := v })

/-- R199: an idle block with nothing happening at its bus, which in the model is an empty `State.bus` (log 6), holds
all its state. -/
def Obligations.IdleBlockHoldsItsState : Prop :=
  ∀ s : State, s.bus = [] → s.pending = none → step s = .next s

/-- The invariant that every step keeps, from every state that meets it: canonical matrix storage inside MEM_WORDS,
BUSY = 1 exactly while the slot is full (R33), and a latch that is all clear or holds an error (R25). -/
def Obligations.StepKeepsInvariant : Prop :=
  ∀ s t : State, GoodState s → step s = .next t → GoodState t

/-- The invariant holds after reset, whatever the OPEN parameters are (log 1). -/
def Obligations.ResetMeetsInvariant : Prop :=
  GoodState State.reset ∧ ∀ p : Params, GoodState (State.resetWith p)

/-- R10, R27, R50: MEM_WORDS and BLOCK_BASE are constants (log 1): no step changes them. -/
def Obligations.StepKeepsParameters : Prop :=
  ∀ s t : State, step s = .next t → t.params = s.params

/-- R86, R88: when the host's events are used up and one more step is taken, the slot is empty and the run is over,
unless a step faulted or was refused before. That the sequencer moves then is the model's form of the spec's fairness
(log 6), and that a run lasts until every listed event is used up is log 17. -/
def Obligations.RunIsOverWhenEventsAreUsedUp : Prop :=
  ∀ s t : State, GoodState s → SafeRun (s.bus.length + 1) s t → RunOver t ∧ t.pending = none

/-- R24: only the acceptance of a command makes BUSY 1, and only its end or a reset makes it 0. Which of the host, the
sequencer and the platform moves is the head of `State.bus` (log 6); the 64-bit bus address is log 14. -/
def Obligations.BusyChangesOnlyByCommandOrReset : Prop :=
  ∀ s t : State, step s = .next t →
    (s.busy = false → t.busy = true →
      ∃ addr v, s.bus.head? = some (.write addr 8 v) ∧ AccessAt s addr 0 ∧ s.err = false ∧ t.pending = some v) ∧
    (s.busy = true → t.busy = false →
      s.bus.head? = some .reset ∨ (SequencersTurn s ∧ s.pending ≠ none ∧ t.pending = none))

/-- R82, R89: the sequencer's transition is a function of the pending word, S, D, NROWS, NCOLS, ERR and the matrix
(and the constant MEM_WORDS): from two states that agree on these it leaves states that agree on them, and it draws
nothing. It leaves the same BUSY where a command was pending or BUSY agreed before, and the same ERRCODE and ERRINFO
where they agreed before. In states that meet the invariant BUSY always agrees, and ERRCODE and ERRINFO do while
ERR = 0; while ERR = 1 the latch is left as it was (R186). -/
def Obligations.SequencerDependsOnlyOnBlockState : Prop :=
  ∀ s s' t : State, s'.pending = s.pending → s'.S = s.S → s'.D = s.D → s'.nrows = s.nrows → s'.ncols = s.ncols →
    s'.err = s.err → s'.matrix = s.matrix → s'.params = s.params → sequencerStep s = .next t →
    t.draws = s.draws ∧ (s.err = true → t.err = true ∧ t.errCode = s.errCode ∧ t.errInfo = s.errInfo) ∧
    ∃ t', sequencerStep s' = .next t' ∧ t'.pending = t.pending ∧ t'.S = t.S ∧ t'.D = t.D ∧ t'.nrows = t.nrows ∧
      t'.ncols = t.ncols ∧ t'.err = t.err ∧ t'.matrix = t.matrix ∧
      (s.pending ≠ none ∨ s'.busy = s.busy → t'.busy = t.busy) ∧
      (s'.errCode = s.errCode → t'.errCode = t.errCode) ∧ (s'.errInfo = s.errInfo → t'.errInfo = t.errInfo) ∧
      (GoodState s → GoodState s' →
        t'.busy = t.busy ∧ (s.err = false → t'.errCode = t.errCode ∧ t'.errInfo = t.errInfo))

/-! ### Host accesses (10_state.md R20 to R29, 40_issue.md R81 to R85)

That the access is the next event of `State.bus` is log 6, and how its bus address gives an offset is log 14. -/

/-- R81, R83: a CMD write while idle fills the slot and sets BUSY, and nothing else changes; with an error latched it
is discarded; while BUSY = 1 no second command is accepted. The host's turn is log 6, its 64-bit address log 14. -/
def Obligations.CmdWriteIssuesOrIsDiscarded : Prop :=
  ∀ (s : State) (addr v : Word) (rest : List BusEvent), s.bus = .write addr 8 v :: rest → AccessAt s addr 0x000 →
    (s.busy = false → s.err = false →
      step s = .next { s with bus := rest, pending := some v, busy := true }) ∧
    (s.busy = false → s.err = true → step s = .next { s with bus := rest }) ∧
    (s.busy = true → ∃ t, step s = .next t ∧ t.pending = s.pending ∧ t.busy = true)

/-- R84: a host write to any offset while BUSY = 1 changes nothing but the latch, which takes BUSY_WRITE and the
offset if ERR = 0. The host's turn is log 6, its 64-bit address log 14. -/
def Obligations.WriteWhileBusyOnlyLatches : Prop :=
  ∀ (s : State) (addr v : Word) (off : Nat) (rest : List BusEvent), s.bus = .write addr 8 v :: rest →
    AccessAt s addr off → s.busy = true →
    step s = .next (if s.err then { s with bus := rest }
      else { s with bus := rest, err := true, errCode := .busyWrite, errInfo := BitVec.ofNat 64 off })

/-- R85: while BUSY = 1, STATUS, ERRINFO, NROWS, NCOLS and MEMWORDS read their current values, CMD and reserved
offsets read 0, and S[i] and D[i] read some value (a free value, log 5); the block does not change. The host's turn is
log 6, its 64-bit address log 14. -/
def Obligations.ReadWhileBusy : Prop :=
  ∀ (s : State) (addr : Word) (off : Nat) (rest : List BusEvent), s.bus = .read addr 8 :: rest →
    AccessAt s addr off → s.busy = true →
    ∃ w n, step s = .next { s with bus := rest, reads := w :: s.reads, draws := n } ∧
      (off = 0x008 → w = statusWord s) ∧ (off = 0x010 → w = s.errInfo) ∧ (off = 0x018 → w = s.nrows) ∧
      (off = 0x020 → w = s.ncols) ∧ (off = 0x028 → w = s.params.memWords) ∧
      (off = 0x000 ∨ (0x030 ≤ off ∧ off ≤ 0x078) ∨ 0x160 ≤ off → w = 0)

/-- R20, R21: while idle, a read returns the register's current value and changes no state of the block. The host's
turn is log 6, its 64-bit address log 14. -/
def Obligations.ReadWhileIdle : Prop :=
  ∀ (s : State) (addr : Word) (off : Nat) (rest : List BusEvent), s.bus = .read addr 8 :: rest →
    AccessAt s addr off → s.busy = false →
    ∃ w, step s = .next { s with bus := rest, reads := w :: s.reads } ∧
      (off = 0x008 → w = statusWord s) ∧ (off = 0x010 → w = s.errInfo) ∧ (off = 0x018 → w = s.nrows) ∧
      (off = 0x020 → w = s.ncols) ∧ (off = 0x028 → w = s.params.memWords) ∧
      (off = 0x000 ∨ (0x030 ≤ off ∧ off ≤ 0x078) ∨ 0x160 ≤ off → w = 0) ∧
      (∀ i : Fin 16, off = 0x080 + 8 * i.val → w = s.S[i]) ∧
      (∀ i : Fin 12, off = 0x100 + 8 * i.val → w = s.D[i])

/-- R21, R29: while idle, a write to NROWS, NCOLS, S[i] or D[i] stores the value unchanged and changes nothing else;
a write to ERRINFO, MEMWORDS or a reserved offset is ignored. The host's turn is log 6, its 64-bit address log 14. -/
def Obligations.WriteWhileIdleStores : Prop :=
  ∀ (s : State) (addr v : Word) (off : Nat) (rest : List BusEvent), s.bus = .write addr 8 v :: rest →
    AccessAt s addr off → s.busy = false →
    (off = 0x018 → step s = .next { s with bus := rest, nrows := v }) ∧
    (off = 0x020 → step s = .next { s with bus := rest, ncols := v }) ∧
    (∀ i : Fin 16, off = 0x080 + 8 * i.val → ∃ t, step s = .next t ∧ t = { s with bus := rest, S := t.S } ∧
      t.S[i] = v ∧ ∀ j : Fin 16, j ≠ i → t.S[j] = s.S[j]) ∧
    (∀ i : Fin 12, off = 0x100 + 8 * i.val → ∃ t, step s = .next t ∧ t = { s with bus := rest, D := t.D } ∧
      t.D[i] = v ∧ ∀ j : Fin 12, j ≠ i → t.D[j] = s.D[j]) ∧
    (off = 0x010 ∨ off = 0x028 ∨ (0x030 ≤ off ∧ off ≤ 0x078) ∨ 0x160 ≤ off → step s = .next { s with bus := rest })

/-- R25, R191: a STATUS write while idle clears the latch when bit 1 of the value is 1, restoring nothing else, and
changes nothing when bit 1 is 0; the other bits are ignored. The host's turn is log 6, its 64-bit address log 14. -/
def Obligations.StatusWriteClearsLatch : Prop :=
  ∀ (s : State) (addr v : Word) (rest : List BusEvent), s.bus = .write addr 8 v :: rest → AccessAt s addr 0x008 →
    s.busy = false →
    (v.getLsbD 1 = true → step s = .next { s with bus := rest, err := false, errCode := .none, errInfo := 0 }) ∧
    (v.getLsbD 1 = false → step s = .next { s with bus := rest })

/-- R23, R181: the fields of STATUS: BUSY bit 0, ERR bit 1, ERRCODE bits 15:8, every other bit 0; and the codes. -/
def Obligations.StatusFieldsAndCodes : Prop :=
  (∀ s : State, (statusWord s).getLsbD 0 = s.busy ∧ (statusWord s).getLsbD 1 = s.err ∧
    (statusWord s).extractLsb' 8 8 = errBits s.errCode ∧
    (∀ k, 2 ≤ k → k ≤ 7 → (statusWord s).getLsbD k = false) ∧
    (∀ k, 16 ≤ k → (statusWord s).getLsbD k = false)) ∧
  errBits .none = 0x00 ∧ errBits .illegalOp = 0x01 ∧ errBits .cfgInvalid = 0x02 ∧ errBits .rowRange = 0x03 ∧
  errBits .colRange = 0x04 ∧ errBits .busyWrite = 0x05

/-- R49: a host read changes nothing of the block, in any state: only the host's side (log 6) and the count of draws
(log 5). -/
def Obligations.ReadsHaveNoSideEffect : Prop :=
  ∀ (s t : State) (addr : Word) (width : Nat) (rest : List BusEvent), s.bus = .read addr width :: rest →
    step s = .next t →
    t = { s with bus := rest, reads := t.reads, draws := t.draws }

/-- R41: an access of the register space that is not 64 bits wide, or not at an 8-byte-aligned offset, is refused
(log 8). The host's turn is log 6, its 64-bit address log 14. -/
def Obligations.MisformedAccessIsRefused : Prop :=
  ∀ (s : State) (addr : Word) (width : Nat) (v : Word) (rest : List BusEvent),
    (addr - s.params.blockBase).toNat < 0x200 → (width ≠ 8 ∨ (addr - s.params.blockBase).toNat % 8 ≠ 0) →
    (s.bus = .write addr width v :: rest ∨ s.bus = .read addr width :: rest) →
    step s = .refused (.accessForm addr width)

/-- R42: byte k of a register access is bits [8k+7:8k] of the register, and the eight lanes give the word back. -/
def Obligations.ByteLanesAreLittleEndian : Prop :=
  ∀ v : Word, wordOfLanes (byteLanes v) = v ∧
    ∀ k i : Nat, (h : k < 8) → i < 8 → (byteLanes v)[k].getLsbD i = v.getLsbD (8 * k + i)

/-! ### Reset (70_reset_and_hazards.md R210 to R213) -/

/-- R211, R212: a reset at any time (the platform's turn is log 6), also with a command pending, leaves S, D, NROWS,
NCOLS, STATUS and ERRINFO zero and the slot empty, and no word of the matrix with a value under any configuration; the
constants stay. That an unspecified word has no value is the model's form (log 3, log 10). -/
def Obligations.ResetLeavesResetValues : Prop :=
  (∀ (s : State) (rest : List BusEvent), s.bus = .reset :: rest →
    ∃ t, step s = .next t ∧ (∀ i : Fin 16, t.S[i] = 0) ∧ (∀ i : Fin 12, t.D[i] = 0) ∧ t.nrows = 0 ∧ t.ncols = 0 ∧
      statusWord t = 0 ∧ t.errInfo = 0 ∧ t.pending = none ∧ (∀ a, Memory.lookup t.matrix a = none) ∧
      t.params = s.params ∧ t.bus = rest) ∧
  (∀ p : Params, (∀ i : Fin 16, (State.resetWith p).S[i] = 0) ∧ (∀ i : Fin 12, (State.resetWith p).D[i] = 0) ∧
    (State.resetWith p).nrows = 0 ∧ (State.resetWith p).ncols = 0 ∧ statusWord (State.resetWith p) = 0 ∧
    (State.resetWith p).errInfo = 0 ∧ (State.resetWith p).pending = none ∧
    ∀ a, Memory.lookup (State.resetWith p).matrix a = none)

/-! ### Errors (60_exceptions.md) -/

/-- R26, R183: cfgValid() holds exactly when NROWS is a power of two up to 65536, NCOLS is 1 to 65536 and the matrix
fits in MEM_WORDS. -/
def Obligations.CfgValidMeansLegalConfiguration : Prop :=
  ∀ s : State, cfgValid s = true ↔
    (∃ k, k ≤ 16 ∧ s.nrows.toNat = 2 ^ k) ∧ 1 ≤ s.ncols.toNat ∧ s.ncols.toNat ≤ 65536 ∧
      s.nrows.toNat * s.ncols.toNat * 12 ≤ s.params.memWords.toNat

/-- R183, R184, R185, R188: the errors of a matrix command, in their order: CFG_INVALID, then ROW_RANGE, then
COL_RANGE. The latch takes the code and the complete command word (log 13) if ERR = 0, and nothing else changes. -/
def Obligations.MatrixCommandErrorsInOrder : Prop :=
  ∀ (i : Instr) (s : State), rowOperands i ≠ [] →
    (cfgValid s = false →
      exec i s = .next (if s.err then s else { s with err := true, errCode := .cfgInvalid, errInfo := encode i })) ∧
    (cfgValid s = true → (∃ r ∈ rowOperands i, s.nrows.toNat ≤ r.toNat) →
      exec i s = .next (if s.err then s else { s with err := true, errCode := .rowRange, errInfo := encode i })) ∧
    (cfgValid s = true → (∀ r ∈ rowOperands i, r.toNat < s.nrows.toNat) →
      (∃ c ∈ colOperands i, s.ncols.toNat ≤ c.toNat) →
      exec i s = .next (if s.err then s else { s with err := true, errCode := .colRange, errInfo := encode i }))

/-- R82, R186: a command either leaves the latch as it was, or fails: then it had ERR = 0 before, and it changes
nothing but the latch, which holds its code and its command word (`encode i`, log 13). -/
def Obligations.FailingCommandChangesOnlyTheLatch : Prop :=
  ∀ (i : Instr) (s t : State), exec i s = .next t →
    (t.err = s.err ∧ t.errCode = s.errCode ∧ t.errInfo = s.errInfo) ∨
    (s.err = false ∧ (t = { s with err := true, errCode := .cfgInvalid, errInfo := encode i } ∨
      t = { s with err := true, errCode := .rowRange, errInfo := encode i } ∨
      t = { s with err := true, errCode := .colRange, errInfo := encode i }))

/-- R186, R187: the first error is kept: while ERR = 1 no step of the sequencer (its turn is log 6) changes the latch,
so the error of a command that fails after a BUSY_WRITE is not recorded. -/
def Obligations.LatchedErrorSurvivesCommands : Prop :=
  ∀ s t : State, s.err = true → SequencersTurn s → step s = .next t →
    t.err = true ∧ t.errCode = s.errCode ∧ t.errInfo = s.errInfo

/-- No command is refused, and a command faults only on a matrix read that the spec tells a model to fault on (R36,
R217; log 3, log 4): its checks have passed, and some row that R44 says it reads is not wholly written. -/
def Obligations.OnlyUnwrittenReadsStopACommand : Prop :=
  ∀ (i : Instr) (s : State), (∀ r, exec i s ≠ .refused r) ∧
    ∀ f, exec i s = .fault f → cfgValid s = true ∧ (∀ r ∈ rowOperands i, r.toNat < s.nrows.toNat) ∧
      (∀ c ∈ colOperands i, c.toNat < s.ncols.toNat) ∧ ∃ row ∈ readRows i, ¬ RowWritten s row.toNat

/-! ### Frames of the commands -/

/-- R26, R31: no command changes NROWS or NCOLS, or anything of the slot, BUSY, the constants or the host's side. -/
def Obligations.CommandsKeepConfiguration : Prop :=
  ∀ (i : Instr) (s t : State), exec i s = .next t →
    t.nrows = s.nrows ∧ t.ncols = s.ncols ∧ t.busy = s.busy ∧ t.pending = s.pending ∧ t.params = s.params ∧
      t.bus = s.bus ∧ t.reads = s.reads ∧ t.draws = s.draws

/-- R19, R44, R216: every word of the matrix that the command does not write is as before; D changes only by SQUEEZE
and BLK_READ, and S does not change by NOP, BLK_READ and BLK_WRITE. -/
def Obligations.CommandsChangeOnlyWhatTheyWrite : Prop :=
  ∀ (i : Instr) (s t : State), exec i s = .next t →
    SameOutside s t (writesTo s i) ∧ (changesD i = false → t.D = s.D) ∧ (changesS i = false → t.S = s.S)

/-! ### The permutation (41_sponge.md R90 to R93) -/

/-- R13, R101: ROTR moves bits cyclically, and none is lost. -/
def Obligations.RotrMovesBitsCyclically : Prop :=
  ∀ (x : Word) (n i : Nat), 1 ≤ n → n ≤ 63 → i < 64 → (rotr x n).getLsbD i = x.getLsbD ((i + n) % 64)

/-- R90: mix is the Blake2b G function, in exactly this order, with rotations by 32, 24, 16 and 63; and the source's
example. -/
def Obligations.MixIsBlake2bG : Prop :=
  (∀ a b c d : Word,
    let a1 := a + b
    let d1 := (d ^^^ a1).rotateRight 32
    let c1 := c + d1
    let b1 := (b ^^^ c1).rotateRight 24
    let a2 := a1 + b1
    let d2 := (d1 ^^^ a2).rotateRight 16
    let c2 := c1 + d2
    let b2 := (b1 ^^^ c2).rotateRight 63
    mix a b c d = (a2, b2, c2, d2)) ∧
  mix 0x665b812845b63236 0x665b812845b63236 0x6a09e667f3bcc908 0x510e527fade682d1
    = (0x8ce204475ab87240, 0xe65eecf17679dbd8, 0xb304778e7470e038, 0x226faa68e2fac701)

/-- R91: one round on the sixteen words: the four column calls, then the four diagonal calls on their results. -/
def Obligations.RoundIsColumnThenDiagonalStep : Prop :=
  ∀ S : Sponge, ∀ a b c d a' b' c' d' : Word × Word × Word × Word,
    mix S[0] S[4] S[8] S[12] = a → mix S[1] S[5] S[9] S[13] = b →
    mix S[2] S[6] S[10] S[14] = c → mix S[3] S[7] S[11] S[15] = d →
    mix a.1 b.2.1 c.2.2.1 d.2.2.2 = a' → mix b.1 c.2.1 d.2.2.1 a.2.2.2 = b' →
    mix c.1 d.2.1 a.2.2.1 b.2.2.2 = c' → mix d.1 a.2.1 b.2.2.1 c.2.2.2 = d' →
    spongeRound S = #v[a'.1, b'.1, c'.1, d'.1, d'.2.1, a'.2.1, b'.2.1, c'.2.1,
      c'.2.2.1, d'.2.2.1, a'.2.2.1, b'.2.2.1, b'.2.2.2, c'.2.2.2, d'.2.2.2, a'.2.2.2]

/-- R91: the order of the four column-step calls among themselves does not change the result, and the same holds for
the four diagonal-step calls. -/
def Obligations.StepCallsCommute : Prop :=
  ∀ (S : Sponge) (gs : List MixGroup),
    (gs.Perm columnGroups → mixAll S gs = mixAll S columnGroups) ∧
    (gs.Perm diagonalGroups → mixAll S gs = mixAll S diagonalGroups)

/-- R9, R92, R93: the round, and so each of the two permutations, is a permutation of the sponge states: no two
states go to one, and every state is reached. -/
def Obligations.PermutationsAreBijective : Prop :=
  Function.Bijective spongeRound ∧ Function.Bijective fullPermutation ∧ Function.Bijective reducedPermutation

/-! ### The sponge commands and NOP (41_sponge.md R95 to R100, 44_control.md R140) -/

/-- R140: NOP completes in every state and has no effect; its command word is 0. -/
def Obligations.NopHasNoEffect : Prop :=
  encode .nop = 0x0000000000000000 ∧ ∀ s : State, exec .nop s = .next s

/-- R95: INIT completes in every state: S[0..7] become 0 and S[8..15] the IV; nothing else changes; issued twice it
gives the same state. -/
def Obligations.InitSetsInitState : Prop :=
  encode .init = 0x0000000000000001 ∧ ∀ s : State, ∃ t, exec .init s = .next t ∧ OnlyS s t ∧
    (∀ i, (h : i < 8) → t.S[i] = 0 ∧ t.S[8 + i] = iv[i]) ∧ exec .init t = .next t

/-- R94: the IV constants are the eight of the table, PRESUMED by the spec from general knowledge (log 7). -/
def Obligations.IvIsBlake2bIv : Prop :=
  ∀ s t : State, exec .init s = .next t →
    t.S[8] = 0x6a09e667f3bcc908 ∧ t.S[9] = 0xbb67ae8584caa73b ∧ t.S[10] = 0x3c6ef372fe94f82b ∧
    t.S[11] = 0xa54ff53a5f1d36f1 ∧ t.S[12] = 0x510e527fade682d1 ∧ t.S[13] = 0x9b05688c2b3e6c1f ∧
    t.S[14] = 0x1f83d9abfb41bd6b ∧ t.S[15] = 0x5be0cd19137e2179

/-- R96: PERM_FULL completes in every state and applies the round 12 times to S; nothing else changes, and an
all-zero S stays all-zero. -/
def Obligations.PermFullAppliesTwelveRounds : Prop :=
  encode .permFull = 0x0000000000000002 ∧ ∀ s : State, ∃ t, exec .permFull s = .next t ∧ OnlyS s t ∧
    t.S = spongeRound^[12] s.S ∧ ((∀ i : Fin 16, s.S[i] = 0) → t = s)

/-- R97: PERM_RED completes in every state and applies the round once to S; nothing else changes, and an all-zero S
stays all-zero. -/
def Obligations.PermRedAppliesOneRound : Prop :=
  encode .permRed = 0x0000000000000003 ∧ ∀ s : State, ∃ t, exec .permRed s = .next t ∧ OnlyS s t ∧
    t.S = spongeRound s.S ∧ ((∀ i : Fin 16, s.S[i] = 0) → t = s)

/-- R98: ABSORB completes in every state: words 0 to 11 of S are XORed with D, the capacity receives no input, and
the full permutation follows; nothing but S changes. With D zero it is PERM_FULL, and with D = S[0..11] the rate is
zero before the permutation. -/
def Obligations.AbsorbXorsRateThenPermutes : Prop :=
  encode .absorb = 0x0000000000000004 ∧ ∀ s : State, ∃ t X, exec .absorb s = .next t ∧ OnlyS s t ∧
    (∀ j, (h : j < 12) → X[j] = s.S[j] ^^^ s.D[j]) ∧ (∀ j, 12 ≤ j → (h : j < 16) → X[j] = s.S[j]) ∧
    t.S = spongeRound^[12] X ∧ ((∀ j : Fin 12, s.D[j] = 0) → exec .permFull s = .next t) ∧
    ((∀ j, (h : j < 12) → s.D[j] = s.S[j]) → ∀ j, (h : j < 12) → X[j] = 0)

/-- R99: ABSORB_SAFE completes in every state: words 0 to 7 of S are XORed with D[0..7], S[8..15] receive no input,
and the full permutation follows; nothing but S changes, and the result does not depend on D[8..11]. -/
def Obligations.AbsorbSafeXorsSafeRateThenPermutes : Prop :=
  encode .absorbSafe = 0x0000000000000005 ∧ ∀ s : State, ∃ t X, exec .absorbSafe s = .next t ∧ OnlyS s t ∧
    (∀ j, (h : j < 8) → X[j] = s.S[j] ^^^ s.D[j]) ∧ (∀ j, 8 ≤ j → (h : j < 16) → X[j] = s.S[j]) ∧
    t.S = spongeRound^[12] X ∧
    (∀ E : Block, (∀ j, (h : j < 8) → E[j] = s.D[j]) →
      ∃ u, exec .absorbSafe { s with D := E } = .next u ∧ u.S = t.S) ∧
    ((∀ j, (h : j < 8) → s.D[j] = 0) → exec .permFull s = .next t)

/-- R100: SQUEEZE completes in every state: D takes the rate S[0..11], and then the full permutation is applied;
nothing else changes. -/
def Obligations.SqueezeCopiesRateThenPermutes : Prop :=
  encode .squeeze = 0x0000000000000006 ∧ ∀ s : State, ∃ t, exec .squeeze s = .next t ∧
    t = { s with S := t.S, D := t.D } ∧ (∀ j, (h : j < 12) → t.D[j] = s.S[j]) ∧ t.S = spongeRound^[12] s.S

/-! ### The matrix port (42_matrix_port.md R110 to R112) -/

/-- R43, R110: under a valid configuration the 12 words of a cell are at (r * NCOLS + c) * 12 + j, below MEM_WORDS,
and no two words of two cells share an address. -/
def Obligations.CellsLieInsideAndApart : Prop :=
  ∀ (s : State) (r c j : Nat), cfgValid s = true → r < s.nrows.toNat → c < s.ncols.toNat → j < 12 →
    cellAddr s r c + j = (r * s.ncols.toNat + c) * 12 + j ∧ cellAddr s r c + j < s.params.memWords.toNat ∧
    ∀ r' c' j' : Nat, r' < s.nrows.toNat → c' < s.ncols.toNat → j' < 12 →
      cellAddr s r c + j = cellAddr s r' c' + j' → r = r' ∧ c = c' ∧ j = j'

/-- R111: BLK_READ completes when the configuration is valid, both operands are in range and the cell is written:
D takes its 12 words; S, the matrix and everything else are unchanged. -/
def Obligations.BlkReadCopiesCellToD : Prop :=
  ∀ (s : State) (row col : Index), cfgValid s = true → row.toNat < s.nrows.toNat → col.toNat < s.ncols.toNat →
    CellWritten s row.toNat col.toNat →
    ∃ t, exec (.blkRead row col) s = .next t ∧ t = { s with D := t.D } ∧
      ∀ j, (h : j < 12) → readWord s ((row.toNat * s.ncols.toNat + col.toNat) * 12 + j) = .ok t.D[j]

/-- R112: BLK_WRITE completes when the configuration is valid and both operands are in range: the 12 words of the
cell take D[0..11], every other word of the matrix is as before, and nothing else changes. -/
def Obligations.BlkWriteCopiesDToCell : Prop :=
  ∀ (s : State) (row col : Index), cfgValid s = true → row.toNat < s.nrows.toNat → col.toNat < s.ncols.toNat →
    ∃ t, exec (.blkWrite row col) s = .next t ∧ t = { s with matrix := t.matrix } ∧
      (∀ j, (h : j < 12) → readWord t ((row.toNat * s.ncols.toNat + col.toNat) * 12 + j) = .ok s.D[j]) ∧
      SameOutside s t (inCell s row.toNat col.toNat)

/-- R111, R112: what BLK_WRITE stored, BLK_READ of the cell gives back, whatever S and D hold in between. -/
def Obligations.BlkWriteThenReadGivesBack : Prop :=
  ∀ (s t : State) (row col : Index) (S : Sponge) (D : Block), cfgValid s = true → row.toNat < s.nrows.toNat →
    col.toNat < s.ncols.toNat → exec (.blkWrite row col) s = .next t →
    ∃ u, exec (.blkRead row col) { t with S := S, D := D } = .next u ∧ u.D = s.D

/-- R36, R217: with a valid configuration and operands in range, BLK_READ stops with a fault exactly when some word
of the cell is not written since reset under the current configuration (the model's treatment, log 3 and log 4). -/
def Obligations.BlkReadFaultsExactlyOnUnwrittenCell : Prop :=
  ∀ (s : State) (row col : Index), cfgValid s = true → row.toNat < s.nrows.toNat → col.toNat < s.ncols.toNat →
    ((∃ f, exec (.blkRead row col) s = .fault f) ↔ ¬ CellWritten s row.toNat col.toNat)

/-- R217: a word that can be read under one NROWS and NCOLS is unwritten for reading once either differs, and can be
read again, unchanged, when both are restored (the model's treatment, log 4). -/
def Obligations.ReconfiguredWordsReadAsUnwritten : Prop :=
  ∀ (s : State) (a : Nat) (w nrows ncols : Word), readWord s a = .ok w →
    (readWord { s with nrows := nrows, ncols := ncols } a = .ok w ↔ nrows = s.nrows ∧ ncols = s.ncols) ∧
    (¬ (nrows = s.nrows ∧ ncols = s.ncols) → ¬ WordWritten { s with nrows := nrows, ncols := ncols } a)

/-! ### The duplex primitives (43_duplex.md R120 to R126) -/

/-- R14, R102: the block operations act lane by lane, and rotW moves word j-1 to word j and word 11 to word 0. -/
def Obligations.BlockOperationsAreLanewise : Prop :=
  (∀ (X Y : Block) (j : Nat) (h : j < 12), (blockXor X Y)[j] = X[j] ^^^ Y[j] ∧ (blockAdd X Y)[j] = X[j] + Y[j]) ∧
  (∀ X : Block, (rotW X)[0] = X[11] ∧ ∀ j, (h : j + 1 < 12) → (rotW X)[j + 1] = X[j]) ∧
  (∀ (S : Sponge) (X : Block), (∀ j, (h : j < 12) → (rate S)[j] = S[j] ∧ (xorRate S X)[j] = S[j] ^^^ X[j]) ∧
    ∀ j, 12 ≤ j → (h : j < 16) → (xorRate S X)[j] = S[j])

/-- R121: SEED_ROW0 completes when the configuration is valid and rowOut is in range: the cell at column N-1-c takes
the rate of the state after c rounds, S takes N rounds, and nothing outside the row changes. -/
def Obligations.SeedRow0WritesRowDescending : Prop :=
  ∀ (s : State) (rowOut : Index), cfgValid s = true → rowOut.toNat < s.nrows.toNat →
    ∃ t, exec (.seedRow0 rowOut) s = .next t ∧ OnlySMatrix s t ∧ t.S = spongeRound^[s.ncols.toNat] s.S ∧
      (∀ c, c < s.ncols.toNat →
        readCell t rowOut.toNat (s.ncols.toNat - 1 - c) = .ok (rate (spongeRound^[c] s.S))) ∧
      SameOutside s t (inRow s rowOut.toNat)

/-- R122: DUPLEX_ROW1 completes when the configuration is valid, both rows are in range and rowIn is written; column
by column it binds X, XORs it into the rate, applies one round, and overwrites the cell of rowOut at column N-1-c with
X XOR the rate. The rows may coincide (R120); then only the cells read before the command writes them need be written
before it. -/
def Obligations.DuplexRow1RunsItsColumns : Prop :=
  ∀ (s : State) (rowIn rowOut : Index), cfgValid s = true → rowIn.toNat < s.nrows.toNat →
    rowOut.toNat < s.nrows.toNat → WrittenWhereReadFirst s rowIn.toNat rowOut.toNat →
    ∃ t, exec (.duplexRow1 rowIn rowOut) s = .next t ∧ OnlySMatrix s t ∧
      ColumnRun (fun c u v => ∃ X S, readCell u rowIn.toNat c = .ok X ∧ S = spongeRound (xorRate u.S X) ∧
        CellSet { u with S := S } v rowOut.toNat (s.ncols.toNat - 1 - c) (blockXor X (rate S)))
        s.ncols.toNat s t

/-- R123: DUPLEX_SETUP completes when the configuration is valid, the three rows are in range and rowIn and rowInOut
are written; column by column it runs the rule's pseudocode, reading rowInOut again after the write to rowOut. The
rows may coincide (R120); of a row that coincides with rowOut only the cells read before the command writes them need
be written before it. -/
def Obligations.DuplexSetupRunsItsColumns : Prop :=
  ∀ (s : State) (rowIn rowInOut rowOut : Index), cfgValid s = true → rowIn.toNat < s.nrows.toNat →
    rowInOut.toNat < s.nrows.toNat → rowOut.toNat < s.nrows.toNat →
    WrittenWhereReadFirst s rowIn.toNat rowOut.toNat → WrittenWhereReadFirst s rowInOut.toNat rowOut.toNat →
    ∃ t, exec (.duplexSetup rowIn rowInOut rowOut) s = .next t ∧ OnlySMatrix s t ∧
      ColumnRun (fun c u v => ∃ X Y Z S m, readCell u rowIn.toNat c = .ok X ∧ readCell u rowInOut.toNat c = .ok Y ∧
        S = spongeRound (xorRate u.S (blockAdd X Y)) ∧
        CellSet { u with S := S } m rowOut.toNat (s.ncols.toNat - 1 - c) (blockXor X (rate S)) ∧
        readCell m rowInOut.toNat c = .ok Z ∧
        CellSet m v rowInOut.toNat c (blockXor Z (rotW (rate S))))
        s.ncols.toNat s t

/-- R124: DUPLEX_WANDER completes when the configuration is valid and the three rows are in range and written; column
by column it runs the rule's pseudocode, every access to column c. The rows may coincide (R120); each cell is read
before the command writes it, so in every case the three rows must be written before it. -/
def Obligations.DuplexWanderRunsItsColumns : Prop :=
  ∀ (s : State) (rowIn rowInOut rowOut : Index), cfgValid s = true → rowIn.toNat < s.nrows.toNat →
    rowInOut.toNat < s.nrows.toNat → rowOut.toNat < s.nrows.toNat → RowWritten s rowIn.toNat →
    RowWritten s rowInOut.toNat → RowWritten s rowOut.toNat →
    ∃ t, exec (.duplexWander rowIn rowInOut rowOut) s = .next t ∧ OnlySMatrix s t ∧
      ColumnRun (fun c u v => ∃ X Y W Z S m, readCell u rowIn.toNat c = .ok X ∧
        readCell u rowInOut.toNat c = .ok Y ∧ S = spongeRound (xorRate u.S (blockAdd X Y)) ∧
        readCell u rowOut.toNat c = .ok W ∧
        CellSet { u with S := S } m rowOut.toNat c (blockXor W (rate S)) ∧
        readCell m rowInOut.toNat c = .ok Z ∧
        CellSet m v rowInOut.toNat c (blockXor Z (rotW (rate S))))
        s.ncols.toNat s t

/-- R36, R217 and U1: with a valid configuration and rows in range, a duplex command stops with a fault exactly when
some cell that it reads before writing it is not written since reset under the current configuration (the model's
treatment, log 3 and log 4). For DUPLEX_WANDER, whose every access is to column c, that is any cell of its rows. -/
def Obligations.DuplexFaultsExactlyOnUnwrittenReads : Prop :=
  ∀ (s : State) (rowIn rowInOut rowOut : Index), cfgValid s = true → rowIn.toNat < s.nrows.toNat →
    rowOut.toNat < s.nrows.toNat →
    ((∃ f, exec (.duplexRow1 rowIn rowOut) s = .fault f) ↔ ¬ WrittenWhereReadFirst s rowIn.toNat rowOut.toNat) ∧
    (rowInOut.toNat < s.nrows.toNat →
      ((∃ f, exec (.duplexSetup rowIn rowInOut rowOut) s = .fault f) ↔
        ¬ (WrittenWhereReadFirst s rowIn.toNat rowOut.toNat ∧ WrittenWhereReadFirst s rowInOut.toNat rowOut.toNat)) ∧
      ((∃ f, exec (.duplexWander rowIn rowInOut rowOut) s = .fault f) ↔
        ¬ (RowWritten s rowIn.toNat ∧ RowWritten s rowInOut.toNat ∧ RowWritten s rowOut.toNat)))

/-- R126: no primitive writes rowIn unless rowIn coincides with rowInOut or rowOut; in particular DUPLEX_ROW1 writes
only rowOut. -/
def Obligations.NoFeedbackIntoRowIn : Prop :=
  ∀ (s t : State) (rowIn rowInOut rowOut : Index),
    (rowIn ≠ rowOut →
      (exec (.duplexRow1 rowIn rowOut) s = .next t ∨
        (rowIn ≠ rowInOut ∧ (exec (.duplexSetup rowIn rowInOut rowOut) s = .next t ∨
          exec (.duplexWander rowIn rowInOut rowOut) s = .next t))) →
      ∀ a, inRow s rowIn.toNat a → Memory.lookup t.matrix a = Memory.lookup s.matrix a) ∧
    (exec (.duplexRow1 rowIn rowOut) s = .next t → SameOutside s t (inRow s rowOut.toNat))

/-- R122: DUPLEX_ROW1's write is a fresh overwrite: what rowOut held before does not affect S or the row, when
rowOut is not rowIn. -/
def Obligations.DuplexRow1OverwritesFresh : Prop :=
  ∀ (s s' t : State) (rowIn rowOut : Index), rowIn ≠ rowOut →
    s' = { s with matrix := s'.matrix } → SameOutside s s' (inRow s rowOut.toNat) → cfgValid s = true →
    rowIn.toNat < s.nrows.toNat → rowOut.toNat < s.nrows.toNat → exec (.duplexRow1 rowIn rowOut) s = .next t →
    ∃ t', exec (.duplexRow1 rowIn rowOut) s' = .next t' ∧ t'.S = t.S ∧
      ∀ c, c < s.ncols.toNat → readCell t' rowOut.toNat c = readCell t rowOut.toNat c

/-- R124, R125: with rowInOut = rowOut the iterations of DUPLEX_WANDER do not interact through the matrix, and each
cell ends as W XOR s XOR rotW(s), with W its content before and s the rate after the column's round. -/
def Obligations.WanderOnCoincidingRows : Prop :=
  ∀ (s t : State) (rowIn row : Index), cfgValid s = true → rowIn.toNat < s.nrows.toNat →
    row.toNat < s.nrows.toNat → exec (.duplexWander rowIn row row) s = .next t →
    ∃ T : Nat → Sponge, T 0 = s.S ∧ T s.ncols.toNat = t.S ∧ ∀ c, c < s.ncols.toNat →
      ∃ X W, readCell s rowIn.toNat c = .ok X ∧ readCell s row.toNat c = .ok W ∧
        T (c + 1) = spongeRound (xorRate (T c) (blockAdd X W)) ∧
        readCell t row.toNat c = .ok (blockXor (blockXor W (rate (T (c + 1)))) (rotW (rate (T (c + 1)))))
end

