-- ==== Sys2Proof/Laws/State.lean ====
section
/-! SUPPORT. One lemma for each field of `State` under each update, so that no later proof unfolds a record update. -/

namespace Sys2Proof.Machine

/-! ### S and D -/

@[simp] theorem State.withS_S (S : Sponge) (s : State) : (s.withS S).S = S := rfl
@[simp] theorem State.withS_D (S : Sponge) (s : State) : (s.withS S).D = s.D := rfl
@[simp] theorem State.withS_nrows (S : Sponge) (s : State) : (s.withS S).nrows = s.nrows := rfl
@[simp] theorem State.withS_ncols (S : Sponge) (s : State) : (s.withS S).ncols = s.ncols := rfl
@[simp] theorem State.withS_busy (S : Sponge) (s : State) : (s.withS S).busy = s.busy := rfl
@[simp] theorem State.withS_err (S : Sponge) (s : State) : (s.withS S).err = s.err := rfl
@[simp] theorem State.withS_errCode (S : Sponge) (s : State) : (s.withS S).errCode = s.errCode := rfl
@[simp] theorem State.withS_errInfo (S : Sponge) (s : State) : (s.withS S).errInfo = s.errInfo := rfl
@[simp] theorem State.withS_pending (S : Sponge) (s : State) : (s.withS S).pending = s.pending := rfl
@[simp] theorem State.withS_matrix (S : Sponge) (s : State) : (s.withS S).matrix = s.matrix := rfl
@[simp] theorem State.withS_params (S : Sponge) (s : State) : (s.withS S).params = s.params := rfl
@[simp] theorem State.withS_bus (S : Sponge) (s : State) : (s.withS S).bus = s.bus := rfl
@[simp] theorem State.withS_reads (S : Sponge) (s : State) : (s.withS S).reads = s.reads := rfl
@[simp] theorem State.withS_draws (S : Sponge) (s : State) : (s.withS S).draws = s.draws := rfl

@[simp] theorem State.withD_S (D : Block) (s : State) : (s.withD D).S = s.S := rfl
@[simp] theorem State.withD_D (D : Block) (s : State) : (s.withD D).D = D := rfl
@[simp] theorem State.withD_nrows (D : Block) (s : State) : (s.withD D).nrows = s.nrows := rfl
@[simp] theorem State.withD_ncols (D : Block) (s : State) : (s.withD D).ncols = s.ncols := rfl
@[simp] theorem State.withD_busy (D : Block) (s : State) : (s.withD D).busy = s.busy := rfl
@[simp] theorem State.withD_err (D : Block) (s : State) : (s.withD D).err = s.err := rfl
@[simp] theorem State.withD_errCode (D : Block) (s : State) : (s.withD D).errCode = s.errCode := rfl
@[simp] theorem State.withD_errInfo (D : Block) (s : State) : (s.withD D).errInfo = s.errInfo := rfl
@[simp] theorem State.withD_pending (D : Block) (s : State) : (s.withD D).pending = s.pending := rfl
@[simp] theorem State.withD_matrix (D : Block) (s : State) : (s.withD D).matrix = s.matrix := rfl
@[simp] theorem State.withD_params (D : Block) (s : State) : (s.withD D).params = s.params := rfl
@[simp] theorem State.withD_bus (D : Block) (s : State) : (s.withD D).bus = s.bus := rfl
@[simp] theorem State.withD_reads (D : Block) (s : State) : (s.withD D).reads = s.reads := rfl
@[simp] theorem State.withD_draws (D : Block) (s : State) : (s.withD D).draws = s.draws := rfl

/-! ### Matrix writes -/

@[simp] theorem memWrite_S (s : State) (a : Nat) (v : List Word) : (memWrite s a v).S = s.S := rfl
@[simp] theorem memWrite_D (s : State) (a : Nat) (v : List Word) : (memWrite s a v).D = s.D := rfl
@[simp] theorem memWrite_nrows (s : State) (a : Nat) (v : List Word) : (memWrite s a v).nrows = s.nrows := rfl
@[simp] theorem memWrite_ncols (s : State) (a : Nat) (v : List Word) : (memWrite s a v).ncols = s.ncols := rfl
@[simp] theorem memWrite_busy (s : State) (a : Nat) (v : List Word) : (memWrite s a v).busy = s.busy := rfl
@[simp] theorem memWrite_err (s : State) (a : Nat) (v : List Word) : (memWrite s a v).err = s.err := rfl
@[simp] theorem memWrite_errCode (s : State) (a : Nat) (v : List Word) : (memWrite s a v).errCode = s.errCode := rfl
@[simp] theorem memWrite_errInfo (s : State) (a : Nat) (v : List Word) : (memWrite s a v).errInfo = s.errInfo := rfl
@[simp] theorem memWrite_pending (s : State) (a : Nat) (v : List Word) : (memWrite s a v).pending = s.pending := rfl
@[simp] theorem memWrite_params (s : State) (a : Nat) (v : List Word) : (memWrite s a v).params = s.params := rfl
@[simp] theorem memWrite_bus (s : State) (a : Nat) (v : List Word) : (memWrite s a v).bus = s.bus := rfl
@[simp] theorem memWrite_reads (s : State) (a : Nat) (v : List Word) : (memWrite s a v).reads = s.reads := rfl
@[simp] theorem memWrite_draws (s : State) (a : Nat) (v : List Word) : (memWrite s a v).draws = s.draws := rfl

@[simp] theorem writeCell_S (s : State) (r c : Nat) (X : Block) : (writeCell s r c X).S = s.S := rfl
@[simp] theorem writeCell_D (s : State) (r c : Nat) (X : Block) : (writeCell s r c X).D = s.D := rfl
@[simp] theorem writeCell_nrows (s : State) (r c : Nat) (X : Block) : (writeCell s r c X).nrows = s.nrows := rfl
@[simp] theorem writeCell_ncols (s : State) (r c : Nat) (X : Block) : (writeCell s r c X).ncols = s.ncols := rfl
@[simp] theorem writeCell_busy (s : State) (r c : Nat) (X : Block) : (writeCell s r c X).busy = s.busy := rfl
@[simp] theorem writeCell_err (s : State) (r c : Nat) (X : Block) : (writeCell s r c X).err = s.err := rfl
@[simp] theorem writeCell_errCode (s : State) (r c : Nat) (X : Block) : (writeCell s r c X).errCode = s.errCode := rfl
@[simp] theorem writeCell_errInfo (s : State) (r c : Nat) (X : Block) : (writeCell s r c X).errInfo = s.errInfo := rfl
@[simp] theorem writeCell_pending (s : State) (r c : Nat) (X : Block) : (writeCell s r c X).pending = s.pending := rfl
@[simp] theorem writeCell_params (s : State) (r c : Nat) (X : Block) : (writeCell s r c X).params = s.params := rfl
@[simp] theorem writeCell_bus (s : State) (r c : Nat) (X : Block) : (writeCell s r c X).bus = s.bus := rfl
@[simp] theorem writeCell_reads (s : State) (r c : Nat) (X : Block) : (writeCell s r c X).reads = s.reads := rfl
@[simp] theorem writeCell_draws (s : State) (r c : Nat) (X : Block) : (writeCell s r c X).draws = s.draws := rfl

/-! ### The pending slot -/

@[simp] theorem accept_S (v : Word) (s : State) : (accept v s).S = s.S := rfl
@[simp] theorem accept_D (v : Word) (s : State) : (accept v s).D = s.D := rfl
@[simp] theorem accept_nrows (v : Word) (s : State) : (accept v s).nrows = s.nrows := rfl
@[simp] theorem accept_ncols (v : Word) (s : State) : (accept v s).ncols = s.ncols := rfl
@[simp] theorem accept_busy (v : Word) (s : State) : (accept v s).busy = true := rfl
@[simp] theorem accept_err (v : Word) (s : State) : (accept v s).err = s.err := rfl
@[simp] theorem accept_errCode (v : Word) (s : State) : (accept v s).errCode = s.errCode := rfl
@[simp] theorem accept_errInfo (v : Word) (s : State) : (accept v s).errInfo = s.errInfo := rfl
@[simp] theorem accept_pending (v : Word) (s : State) : (accept v s).pending = some v := rfl
@[simp] theorem accept_matrix (v : Word) (s : State) : (accept v s).matrix = s.matrix := rfl
@[simp] theorem accept_params (v : Word) (s : State) : (accept v s).params = s.params := rfl
@[simp] theorem accept_bus (v : Word) (s : State) : (accept v s).bus = s.bus := rfl
@[simp] theorem accept_reads (v : Word) (s : State) : (accept v s).reads = s.reads := rfl
@[simp] theorem accept_draws (v : Word) (s : State) : (accept v s).draws = s.draws := rfl

@[simp] theorem retire_S (s : State) : (retire s).S = s.S := rfl
@[simp] theorem retire_D (s : State) : (retire s).D = s.D := rfl
@[simp] theorem retire_nrows (s : State) : (retire s).nrows = s.nrows := rfl
@[simp] theorem retire_ncols (s : State) : (retire s).ncols = s.ncols := rfl
@[simp] theorem retire_busy (s : State) : (retire s).busy = false := rfl
@[simp] theorem retire_err (s : State) : (retire s).err = s.err := rfl
@[simp] theorem retire_errCode (s : State) : (retire s).errCode = s.errCode := rfl
@[simp] theorem retire_errInfo (s : State) : (retire s).errInfo = s.errInfo := rfl
@[simp] theorem retire_pending (s : State) : (retire s).pending = none := rfl
@[simp] theorem retire_matrix (s : State) : (retire s).matrix = s.matrix := rfl
@[simp] theorem retire_params (s : State) : (retire s).params = s.params := rfl
@[simp] theorem retire_bus (s : State) : (retire s).bus = s.bus := rfl
@[simp] theorem retire_reads (s : State) : (retire s).reads = s.reads := rfl
@[simp] theorem retire_draws (s : State) : (retire s).draws = s.draws := rfl

/-! ### The error latch -/

@[simp] theorem clearError_S (s : State) : (clearError s).S = s.S := rfl
@[simp] theorem clearError_D (s : State) : (clearError s).D = s.D := rfl
@[simp] theorem clearError_nrows (s : State) : (clearError s).nrows = s.nrows := rfl
@[simp] theorem clearError_ncols (s : State) : (clearError s).ncols = s.ncols := rfl
@[simp] theorem clearError_busy (s : State) : (clearError s).busy = s.busy := rfl
@[simp] theorem clearError_err (s : State) : (clearError s).err = false := rfl
@[simp] theorem clearError_errCode (s : State) : (clearError s).errCode = .none := rfl
@[simp] theorem clearError_errInfo (s : State) : (clearError s).errInfo = 0 := rfl
@[simp] theorem clearError_pending (s : State) : (clearError s).pending = s.pending := rfl
@[simp] theorem clearError_matrix (s : State) : (clearError s).matrix = s.matrix := rfl
@[simp] theorem clearError_params (s : State) : (clearError s).params = s.params := rfl
@[simp] theorem clearError_bus (s : State) : (clearError s).bus = s.bus := rfl
@[simp] theorem clearError_reads (s : State) : (clearError s).reads = s.reads := rfl
@[simp] theorem clearError_draws (s : State) : (clearError s).draws = s.draws := rfl

@[simp] theorem raise_S (code : ErrCode) (info : Word) (s : State) : (raise code info s).S = s.S := by unfold raise; split <;> rfl
@[simp] theorem raise_D (code : ErrCode) (info : Word) (s : State) : (raise code info s).D = s.D := by unfold raise; split <;> rfl
@[simp] theorem raise_nrows (code : ErrCode) (info : Word) (s : State) : (raise code info s).nrows = s.nrows := by unfold raise; split <;> rfl
@[simp] theorem raise_ncols (code : ErrCode) (info : Word) (s : State) : (raise code info s).ncols = s.ncols := by unfold raise; split <;> rfl
@[simp] theorem raise_busy (code : ErrCode) (info : Word) (s : State) : (raise code info s).busy = s.busy := by unfold raise; split <;> rfl
@[simp] theorem raise_pending (code : ErrCode) (info : Word) (s : State) : (raise code info s).pending = s.pending := by unfold raise; split <;> rfl
@[simp] theorem raise_matrix (code : ErrCode) (info : Word) (s : State) : (raise code info s).matrix = s.matrix := by unfold raise; split <;> rfl
@[simp] theorem raise_params (code : ErrCode) (info : Word) (s : State) : (raise code info s).params = s.params := by unfold raise; split <;> rfl
@[simp] theorem raise_bus (code : ErrCode) (info : Word) (s : State) : (raise code info s).bus = s.bus := by unfold raise; split <;> rfl
@[simp] theorem raise_reads (code : ErrCode) (info : Word) (s : State) : (raise code info s).reads = s.reads := by unfold raise; split <;> rfl
@[simp] theorem raise_draws (code : ErrCode) (info : Word) (s : State) : (raise code info s).draws = s.draws := by unfold raise; split <;> rfl

/-- R186: the latch after `raise` is set, and holds the first error. -/
@[simp] theorem raise_err (code : ErrCode) (info : Word) (s : State) : (raise code info s).err = true := by
  unfold raise; split <;> simp_all

theorem raise_errCode (code : ErrCode) (info : Word) (s : State) :
    (raise code info s).errCode = if s.err then s.errCode else code := by
  unfold raise; split <;> simp_all

theorem raise_errInfo (code : ErrCode) (info : Word) (s : State) :
    (raise code info s).errInfo = if s.err then s.errInfo else info := by
  unfold raise; split <;> simp_all

/-- R186: an error already latched is kept, and nothing changes. -/
theorem raise_of_err (code : ErrCode) (info : Word) (s : State) (h : s.err = true) : raise code info s = s := by
  simp [raise, h]

/-- R186: the first error is latched. -/
theorem raise_of_no_err (code : ErrCode) (info : Word) (s : State) (h : s.err = false) :
    raise code info s = { s with err := true, errCode := code, errInfo := info } := by
  simp [raise, h]

/-! ### Setting a register twice, and to what it holds -/

@[simp] theorem State.withS_withS (s : State) (S T : Sponge) : (s.withS S).withS T = s.withS T := rfl
@[simp] theorem State.withD_withD (s : State) (D E : Block) : (s.withD D).withD E = s.withD E := rfl
@[simp] theorem State.withS_self (s : State) : s.withS s.S = s := rfl
@[simp] theorem State.withD_self (s : State) : s.withD s.D = s := rfl

end Sys2Proof.Machine
end

