-- ==== Sys2Proof/Laws/Bus.lean ====
section
/-! SUPPORT. What a host access, a reset and a step can do (R21, R41, R80 to R85, R210). -/

namespace Sys2Proof.Machine

/-! ### The form of an access -/

/-- R41, R40: an access reaches the block exactly when it is 8 bytes wide at an aligned offset below 0x200. -/
theorem accessOffset_ok_iff (p : Params) (addr : Word) (width off : Nat) :
    accessOffset p addr width = .ok off ↔
      (addr - p.blockBase).toNat = off ∧ off < 0x200 ∧ width = 8 ∧ off % 8 = 0 := by
  simp only [accessOffset]
  generalize (addr - p.blockBase).toNat = o
  split
  · simp only [reduceCtorEq, false_iff]; omega
  · split
    · simp only [reduceCtorEq, false_iff]; omega
    · simp only [Except.ok.injEq]; omega

/-- R50: the access at BLOCK_BASE plus an aligned offset below 0x200 is the access at that offset. -/
theorem accessOffset_at (p : Params) (off : Nat) (h : off < 0x200) (ha : off % 8 = 0) :
    accessOffset p (p.blockBase + BitVec.ofNat 64 off) 8 = .ok off := by
  rw [accessOffset_ok_iff]
  refine ⟨?_, h, rfl, ha⟩
  rw [add_sub_cancel_left]
  simp only [BitVec.toNat_ofNat]
  omega

/-- An access answers a next state exactly when its form is right, and then it is the act at its offset. -/
theorem atOffset_next_iff (addr : Word) (width : Nat) (act : Nat → State → State) (s t : State) :
    atOffset addr width act s = .next t ↔ ∃ off, accessOffset s.params addr width = .ok off ∧ t = act off s := by
  unfold atOffset
  cases accessOffset s.params addr width with
  | error r => simp
  | ok off => simp [eq_comm]

theorem atOffset_not_fault (addr : Word) (width : Nat) (act : Nat → State → State) (s : State) (f : Fault) :
    atOffset addr width act s ≠ .fault f := by
  unfold atOffset
  cases accessOffset s.params addr width <;> simp

/-! ### The register map -/

theorem hostReg_sponge (i : Fin 16) : hostReg (0x080 + 8 * i.val) = .spongeWord i := by
  revert i; decide

theorem hostReg_data (i : Fin 12) : hostReg (0x100 + 8 * i.val) = .dataWord i := by
  revert i; decide

/-! ### Host writes and reads -/

theorem hostWrite_busy (off : Nat) (v : Word) (s : State) (h : s.busy = true) :
    hostWrite off v s = raise .busyWrite (BitVec.ofNat 64 off) s := by
  simp [hostWrite, h, writeBusy]

theorem hostWrite_idle (off : Nat) (v : Word) (s : State) (h : s.busy = false) :
    hostWrite off v s = writeIdle (hostReg off) v s := by
  simp [hostWrite, h]

/-- Everything a host write while idle can do. -/
theorem writeIdle_cases (r : HostReg) (v : Word) (s : State) :
    writeIdle r v s = s ∨ (r = .cmd ∧ s.err = false ∧ writeIdle r v s = accept v s) ∨
    (r = .status ∧ clearsLatch v = true ∧ writeIdle r v s = clearError s) ∨
    (r = .nrows ∧ writeIdle r v s = { s with nrows := v }) ∨
    (r = .ncols ∧ writeIdle r v s = { s with ncols := v }) ∨
    (∃ i, r = .spongeWord i ∧ writeIdle r v s = s.withS (s.S.set i v)) ∨
    (∃ i, r = .dataWord i ∧ writeIdle r v s = s.withD (s.D.set i v)) := by
  cases r with
  | cmd => cases h : s.err <;> simp [writeIdle, writeCmd, h]
  | status => cases h : clearsLatch v <;> simp [writeIdle, writeStatus, h]
  | errInfo => simp [writeIdle]
  | nrows => simp [writeIdle]
  | ncols => simp [writeIdle]
  | memWords => simp [writeIdle]
  | spongeWord i => simp [writeIdle]
  | dataWord i => simp [writeIdle]
  | reserved => simp [writeIdle]

/-- R49, R85: a host read changes only what the host has read, and draws at most one unspecified value. -/
theorem hostRead_eq (off : Nat) (s : State) :
    hostRead off s = { s with reads := (hostRead off s).reads, draws := (hostRead off s).draws } := by
  unfold hostRead; split <;> rfl

/-! ### Steps -/

theorem step_nil (s : State) (h : s.bus = []) : step s = sequencerStep s := by simp [step, h]

theorem step_sequencer (s : State) (rest : List BusEvent) (h : s.bus = .sequencer :: rest) :
    step s = sequencerStep { s with bus := rest } := by simp [step, h]

theorem step_reset (s : State) (rest : List BusEvent) (h : s.bus = .reset :: rest) :
    step s = .next (resetBlock { s with bus := rest }) := by simp [step, h]

theorem step_write (s : State) (addr : Word) (width : Nat) (v : Word) (rest : List BusEvent)
    (h : s.bus = .write addr width v :: rest) :
    step s = atOffset addr width (fun off s => hostWrite off v s) { s with bus := rest } := by simp [step, h]

theorem step_read (s : State) (addr : Word) (width : Nat) (rest : List BusEvent)
    (h : s.bus = .read addr width :: rest) :
    step s = atOffset addr width hostRead { s with bus := rest } := by simp [step, h]

/-- A 64-bit write whose address has an offset is that offset's write. -/
theorem step_write_at {s : State} {addr v : Word} {rest : List BusEvent} {off : Nat}
    (h : s.bus = .write addr 8 v :: rest) (ho : accessOffset s.params addr 8 = .ok off) :
    step s = .next (hostWrite off v { s with bus := rest }) := by
  rw [step_write s addr 8 v rest h, atOffset_next_iff]; exact ⟨off, ho, rfl⟩

/-- A 64-bit read whose address has an offset is that offset's read. -/
theorem step_read_at {s : State} {addr : Word} {rest : List BusEvent} {off : Nat}
    (h : s.bus = .read addr 8 :: rest) (ho : accessOffset s.params addr 8 = .ok off) :
    step s = .next (hostRead off { s with bus := rest }) := by
  rw [step_read s addr 8 rest h, atOffset_next_iff]; exact ⟨off, ho, rfl⟩

/-- R82: the end of a command. -/
theorem retired_next_iff (o : Host.Outcome State Fault Refusal) (t : State) :
    retired o = .next t ↔ ∃ u, o = .next u ∧ t = retire u := by
  cases o <;> simp [retired, eq_comm]

theorem retired_fault_iff (o : Host.Outcome State Fault Refusal) (f : Fault) :
    retired o = .fault f ↔ o = .fault f := by
  cases o <;> simp [retired]

theorem retired_refused_iff (o : Host.Outcome State Fault Refusal) (r : Refusal) :
    retired o = .refused r ↔ o = .refused r := by
  cases o <;> simp [retired]

/-- R82: everything the sequencer's step can answer as a next state. -/
theorem sequencerStep_next_cases {s t : State} (h : sequencerStep s = .next t) :
    (s.pending = none ∧ t = s) ∨
    (∃ v e, s.pending = some v ∧ decode v = .error e ∧ t = retire (raise .illegalOp v s)) ∨
    (∃ v i u, s.pending = some v ∧ decode v = .ok i ∧ exec i s = .next u ∧ t = retire u) := by
  unfold sequencerStep at h
  cases hp : s.pending with
  | none => left; simp only [hp, Host.Outcome.next.injEq] at h; exact ⟨rfl, h.symm⟩
  | some v =>
    simp only [hp, runCommand] at h
    cases hd : decode v with
    | error e =>
      simp only [hd, retired, Host.Outcome.next.injEq] at h
      exact .inr (.inl ⟨v, e, rfl, hd, h.symm⟩)
    | ok i =>
      simp only [hd, retired_next_iff] at h
      obtain ⟨u, hu, ht⟩ := h
      exact .inr (.inr ⟨v, i, u, rfl, hd, hu, ht⟩)

/-- Everything a step can answer as a next state: the sequencer's step, a reset, or one host access. -/
theorem step_next_cases {s t : State} (h : step s = .next t) :
    (s.bus = [] ∧ sequencerStep s = .next t) ∨
    (∃ rest, s.bus = .sequencer :: rest ∧ sequencerStep { s with bus := rest } = .next t) ∨
    (∃ rest, s.bus = .reset :: rest ∧ t = resetBlock { s with bus := rest }) ∨
    (∃ addr width v rest off, s.bus = .write addr width v :: rest ∧ accessOffset s.params addr width = .ok off ∧
      t = hostWrite off v { s with bus := rest }) ∨
    (∃ addr width rest off, s.bus = .read addr width :: rest ∧ accessOffset s.params addr width = .ok off ∧
      t = hostRead off { s with bus := rest }) := by
  cases hb : s.bus with
  | nil => left; exact ⟨rfl, step_nil s hb ▸ h⟩
  | cons e rest =>
    right
    cases e with
    | sequencer => left; exact ⟨rest, rfl, step_sequencer s rest hb ▸ h⟩
    | reset =>
      right; left
      rw [step_reset s rest hb, Host.Outcome.next.injEq] at h
      exact ⟨rest, rfl, h.symm⟩
    | write addr width v =>
      right; right; left
      rw [step_write s addr width v rest hb, atOffset_next_iff] at h
      obtain ⟨off, ho, ht⟩ := h
      exact ⟨addr, width, v, rest, off, rfl, ho, ht⟩
    | read addr width =>
      right; right; right
      rw [step_read s addr width rest hb, atOffset_next_iff] at h
      obtain ⟨off, ho, ht⟩ := h
      exact ⟨addr, width, rest, off, rfl, ho, ht⟩

end Sys2Proof.Machine
end

