-- ==== Sys2Proof/Laws/Memory.lean ====
section
/-! SUPPORT. Matrix storage: a read after a write, and the canonical form that every operation keeps. -/

namespace Sys2Proof.Machine

theorem Memory.lookup_store_same (m : Memory) (a : Nat) (w : Stored) :
    Memory.lookup (Memory.store m a w) a = some w := by
  induction m with
  | nil => simp [Memory.store, Memory.lookup]
  | cons e m ih =>
    obtain ⟨b, x⟩ := e
    simp only [Memory.store]
    split
    · simp [Memory.lookup]
    · split
      · simp [Memory.lookup]
      · simp_all [Memory.lookup]

theorem Memory.lookup_store_other (m : Memory) (a a' : Nat) (w : Stored) (h : a' ≠ a) :
    Memory.lookup (Memory.store m a w) a' = Memory.lookup m a' := by
  induction m with
  | nil => simp [Memory.store, Memory.lookup, h]
  | cons e m ih =>
    obtain ⟨b, x⟩ := e
    simp only [Memory.store]
    split
    · simp [Memory.lookup, h]
    · split
      · next hab => subst hab; simp [Memory.lookup, h]
      · simp [Memory.lookup, ih]

/-- What is listed after a store: the word stored, or a word listed before at another address. -/
theorem Memory.mem_store {m : Memory} {a : Nat} {w : Stored} {e : Nat × Stored}
    (h : e ∈ Memory.store m a w) : e = (a, w) ∨ e ∈ m := by
  induction m with
  | nil => simpa [Memory.store] using h
  | cons d m ih =>
    obtain ⟨b, x⟩ := d
    simp only [Memory.store] at h
    split at h
    · simpa using h
    · split at h
      · simp only [List.mem_cons] at h ⊢; tauto
      · simp only [List.mem_cons] at h ⊢
        rcases h with h | h
        · exact .inr (.inl h)
        · rcases ih h with h | h
          · exact .inl h
          · exact .inr (.inr h)

/-- A store keeps the canonical form. -/
theorem Memory.store_wf (m : Memory) (a : Nat) (w : Stored) (h : Memory.wf m) : Memory.wf (Memory.store m a w) := by
  induction m with
  | nil => simp [Memory.store]
  | cons d m ih =>
    obtain ⟨b, x⟩ := d
    obtain ⟨hb, hm⟩ := List.pairwise_cons.mp h
    simp only [Memory.store]
    split
    · next hab =>
      refine List.pairwise_cons.mpr ⟨?_, h⟩
      intro e he
      rcases List.mem_cons.mp he with rfl | he
      · exact hab
      · exact lt_trans hab (hb e he)
    · split
      · next hab => subst hab; exact List.pairwise_cons.mpr ⟨hb, hm⟩
      · next h1 h2 =>
        refine List.pairwise_cons.mpr ⟨?_, ih hm⟩
        intro e he
        rcases Memory.mem_store he with rfl | he
        · show b < a; omega
        · exact hb e he

/-- Storing consecutive words keeps the canonical form. -/
theorem Memory.storeAll_wf (ws : List Stored) (m : Memory) (a : Nat) (h : Memory.wf m) :
    Memory.wf (Memory.storeAll m a ws) := by
  induction ws generalizing m a with
  | nil => exact h
  | cons w ws ih => exact ih _ _ (Memory.store_wf m a w h)

/-- What is listed after storing consecutive words. -/
theorem Memory.mem_storeAll {ws : List Stored} {m : Memory} {a : Nat} {e : Nat × Stored}
    (h : e ∈ Memory.storeAll m a ws) : (a ≤ e.1 ∧ e.1 < a + ws.length) ∨ e ∈ m := by
  induction ws generalizing m a with
  | nil => exact .inr h
  | cons w ws ih =>
    rcases ih h with h | h
    · left; simp only [List.length_cons]; omega
    · rcases Memory.mem_store h with rfl | h
      · left; simp
      · exact .inr h

/-- A word below or above the stored ones reads as before. -/
theorem Memory.lookup_storeAll_other (ws : List Stored) (m : Memory) (a a' : Nat)
    (h : a' < a ∨ a + ws.length ≤ a') : Memory.lookup (Memory.storeAll m a ws) a' = Memory.lookup m a' := by
  induction ws generalizing m a with
  | nil => rfl
  | cons w ws ih =>
    simp only [List.length_cons] at h
    rw [Memory.storeAll, ih _ _ (by omega), Memory.lookup_store_other _ _ _ _ (by omega)]

/-- The j-th stored word reads back. -/
theorem Memory.lookup_storeAll_same (ws : List Stored) (m : Memory) (a j : Nat) (h : j < ws.length) :
    Memory.lookup (Memory.storeAll m a ws) (a + j) = some ws[j] := by
  induction ws generalizing m a j with
  | nil => simp at h
  | cons w ws ih =>
    rw [Memory.storeAll]
    cases j with
    | zero => rw [Memory.lookup_storeAll_other _ _ _ _ (by omega)]; exact Memory.lookup_store_same m a w
    | succ j =>
      rw [show a + (j + 1) = a + 1 + j by omega, ih _ _ _ (by simpa using h)]
      simp

end Sys2Proof.Machine
end

