-- ==== Sys2Proof/Laws/Cells.lean ====
section
/-! SUPPORT. Cells of the matrix through the indexer (R43): when a read answers, what a write leaves. -/

namespace Sys2Proof.Machine

/-- A word can be read exactly when it is listed and was written under the current configuration. -/
theorem readWord_ok_iff (s : State) (a : Nat) (w : Word) :
    readWord s a = .ok w ↔ Memory.lookup s.matrix a = some { value := w, nrows := s.nrows, ncols := s.ncols } := by
  unfold readWord
  split
  · next h => simp [h]
  · next x h =>
    obtain ⟨v, nr, nc⟩ := x
    by_cases hc : current s ⟨v, nr, nc⟩ = true
    · have hc' := hc
      simp only [current, Bool.and_eq_true, beq_iff_eq] at hc'
      obtain ⟨rfl, rfl⟩ := hc'
      simp [h, hc]
    · rw [if_neg hc, h]
      simp only [current, Bool.and_eq_true, beq_iff_eq, not_and] at hc
      constructor
      · intro h; cases h
      · intro h; simp only [Option.some.injEq, Stored.mk.injEq] at h
        exact absurd h.2.2 (hc h.2.1)

/-- Reading depends on the configuration and on the word at the address alone. -/
theorem readWord_congr {s t : State} {a : Nat} (hr : t.nrows = s.nrows) (hc : t.ncols = s.ncols)
    (hm : Memory.lookup t.matrix a = Memory.lookup s.matrix a) : readWord t a = readWord s a := by
  unfold readWord current
  rw [hm, hr, hc]

/-- MemRead answers exactly when each of its words can be read (R15). -/
theorem memRead_ok_iff (s : State) (a n : Nat) (v : Vector Word n) :
    memRead s a n = .ok v ↔ ∀ j, (h : j < n) → readWord s (a + j) = .ok v[j] := by
  induction n generalizing a with
  | zero =>
    constructor
    · intro _ j h; omega
    · intro _; simp only [memRead]; congr 1; exact Vector.ext fun i hi => by omega
  | succ n ih =>
    simp only [memRead]
    cases hw : readWord s a with
    | error f =>
      simp only [reduceCtorEq, false_iff]
      intro h
      have := h 0 (by omega)
      rw [Nat.add_zero, hw] at this; cases this
    | ok w =>
      cases hv : memRead s (a + 1) n with
      | error f =>
        simp only [reduceCtorEq, false_iff]
        intro h
        have := (ih (a + 1) v.tail).mpr fun j hj => by
          rw [show a + 1 + j = a + (j + 1) by omega, h (j + 1) (by omega)]; simp [Nat.add_comm 1 j]
        rw [hv] at this; cases this
      | ok u =>
        have hu := (ih (a + 1) u).mp hv
        simp only [Except.ok.injEq]
        constructor
        · rintro rfl j h
          cases j with
          | zero => simpa using hw
          | succ j =>
            rw [show a + (j + 1) = a + 1 + j by omega, hu j (by omega)]
            simp
        · intro h
          refine Vector.ext fun i hi => ?_
          cases i with
          | zero => simpa [hw] using h 0 (by omega)
          | succ i =>
            have h1 := h (i + 1) hi
            rw [show a + (i + 1) = a + 1 + i by omega, hu i (by omega), Except.ok.injEq] at h1
            simpa [Vector.getElem_append] using h1

/-- Cell(r, c) answers exactly when its 12 words can be read. -/
theorem readCell_ok_iff (s : State) (r c : Nat) (X : Block) :
    readCell s r c = .ok X ↔ ∀ j, (h : j < 12) → readWord s (cellAddr s r c + j) = .ok X[j] :=
  memRead_ok_iff s _ 12 X

/-- Reading a cell depends on the configuration and on its own words alone. -/
theorem memRead_congr {s t : State} {a n : Nat}
    (h : ∀ j, j < n → readWord t (a + j) = readWord s (a + j)) : memRead t a n = memRead s a n := by
  induction n generalizing a with
  | zero => rfl
  | succ n ih =>
    have h0 : readWord t a = readWord s a := h 0 (by omega)
    simp only [memRead, h0]
    rw [ih fun j hj => by rw [show a + 1 + j = a + (j + 1) by omega]; exact h (j + 1) (by omega)]

@[simp] theorem cellAddr_withS (s : State) (S : Sponge) (r c : Nat) : cellAddr (s.withS S) r c = cellAddr s r c := rfl
@[simp] theorem cellAddr_withD (s : State) (D : Block) (r c : Nat) : cellAddr (s.withD D) r c = cellAddr s r c := rfl
@[simp] theorem cellAddr_writeCell (s : State) (r' c' : Nat) (X : Block) (r c : Nat) :
    cellAddr (writeCell s r' c' X) r c = cellAddr s r c := rfl
theorem cellAddr_congr {s t : State} (h : t.ncols = s.ncols) (r c : Nat) : cellAddr t r c = cellAddr s r c := by
  simp [cellAddr, h]

@[simp] theorem readWord_withS (s : State) (S : Sponge) (a : Nat) : readWord (s.withS S) a = readWord s a := rfl
@[simp] theorem readWord_withD (s : State) (D : Block) (a : Nat) : readWord (s.withD D) a = readWord s a := rfl
@[simp] theorem readCell_withS (s : State) (S : Sponge) (r c : Nat) : readCell (s.withS S) r c = readCell s r c :=
  memRead_congr fun _ _ => rfl
@[simp] theorem readCell_withD (s : State) (D : Block) (r c : Nat) : readCell (s.withD D) r c = readCell s r c :=
  memRead_congr fun _ _ => rfl

/-- R15: the j-th word of a cell just written, under the configuration it was written under. -/
theorem lookup_writeCell_same (s : State) (r c : Nat) (X : Block) (j : Nat) (h : j < 12) :
    Memory.lookup (writeCell s r c X).matrix (cellAddr s r c + j)
      = some { value := X[j], nrows := s.nrows, ncols := s.ncols } := by
  simp only [writeCell, memWrite]
  rw [Memory.lookup_storeAll_same _ _ _ _ (by simpa using h)]
  simp

/-- R15: a word outside the cell written is as before. -/
theorem lookup_writeCell_other (s : State) (r c : Nat) (X : Block) (a : Nat)
    (h : a < cellAddr s r c ∨ cellAddr s r c + 12 ≤ a) :
    Memory.lookup (writeCell s r c X).matrix a = Memory.lookup s.matrix a := by
  simp only [writeCell, memWrite]
  exact Memory.lookup_storeAll_other _ _ _ _ (by simpa using h)

theorem readWord_writeCell_same (s : State) (r c : Nat) (X : Block) (j : Nat) (h : j < 12) :
    readWord (writeCell s r c X) (cellAddr s r c + j) = .ok X[j] :=
  (readWord_ok_iff _ _ _).mpr (lookup_writeCell_same s r c X j h)

theorem readWord_writeCell_other (s : State) (r c : Nat) (X : Block) (a : Nat)
    (h : a < cellAddr s r c ∨ cellAddr s r c + 12 ≤ a) : readWord (writeCell s r c X) a = readWord s a :=
  readWord_congr rfl rfl (lookup_writeCell_other s r c X a h)

/-- The cell just written reads back. -/
@[simp] theorem readCell_writeCell_same (s : State) (r c : Nat) (X : Block) :
    readCell (writeCell s r c X) r c = .ok X :=
  (readCell_ok_iff _ _ _ _).mpr fun j h => readWord_writeCell_same s r c X j h

/-- R43: two cells whose columns are in range are the same cell or share no word. -/
theorem cellAddr_apart (s : State) {r c r' c' : Nat} (hc : c < s.ncols.toNat) (hc' : c' < s.ncols.toNat)
    (h : r ≠ r' ∨ c ≠ c') : cellAddr s r c + 12 ≤ cellAddr s r' c' ∨ cellAddr s r' c' + 12 ≤ cellAddr s r c := by
  unfold cellAddr
  rcases Nat.lt_trichotomy r r' with hr | rfl | hr
  · have := Nat.mul_le_mul_right s.ncols.toNat (Nat.succ_le_of_lt hr)
    simp only [Nat.succ_mul] at this
    omega
  · omega
  · have := Nat.mul_le_mul_right s.ncols.toNat (Nat.succ_le_of_lt hr)
    simp only [Nat.succ_mul] at this
    omega

/-- A cell other than the one written reads as before. -/
theorem readCell_writeCell_other (s : State) {r c r' c' : Nat} (X : Block) (hc : c < s.ncols.toNat)
    (hc' : c' < s.ncols.toNat) (h : r' ≠ r ∨ c' ≠ c) : readCell (writeCell s r c X) r' c' = readCell s r' c' := by
  refine memRead_congr fun j hj => ?_
  rw [cellAddr_writeCell]
  refine readWord_writeCell_other s r c X _ ?_
  have := cellAddr_apart s hc' hc h
  omega

/-- After any cell write, a readable cell is readable. -/
theorem readCell_writeCell_readable (s : State) {r c r' c' : Nat} (X : Block) (hc : c < s.ncols.toNat)
    (hc' : c' < s.ncols.toNat) (h : ∃ Y, readCell s r' c' = .ok Y) :
    ∃ Y, readCell (writeCell s r c X) r' c' = .ok Y := by
  by_cases hrc : r' = r ∧ c' = c
  · obtain ⟨rfl, rfl⟩ := hrc; exact ⟨X, readCell_writeCell_same s r' c' X⟩
  · rw [readCell_writeCell_other s X hc hc' (by tauto)]; exact h

/-- A cell write keeps the canonical form. -/
theorem writeCell_wf (s : State) (r c : Nat) (X : Block) (h : Memory.wf s.matrix) :
    Memory.wf (writeCell s r c X).matrix := Memory.storeAll_wf _ _ _ h

/-- A cell write lists no address outside the cell that was not listed before. -/
theorem mem_writeCell {s : State} {r c : Nat} {X : Block} {e : Nat × Stored}
    (h : e ∈ (writeCell s r c X).matrix) :
    (cellAddr s r c ≤ e.1 ∧ e.1 < cellAddr s r c + 12) ∨ e ∈ s.matrix := by
  rcases Memory.mem_storeAll h with h | h
  · left; simpa using h
  · exact .inr h

end Sys2Proof.Machine
end

