-- ==== Sys2Proof/Laws/Commands.lean ====
section
/-! SUPPORT. What the shared operations of the matrix commands can do: the checks (R82), the column loop (R120)
and one column of each duplex primitive (R121 to R124). -/

namespace Sys2Proof.Machine

/-! ### The checks -/

/-- R188: a matrix command whose checks pass is performed. -/
theorem matrixCommand_passes (i : Instr) (rows cols : List Index) (f : State → Except Fault State) (s : State)
    (hcfg : cfgValid s = true) (hrow : ∀ r ∈ rows, r.toNat < s.nrows.toNat) (hcol : ∀ c ∈ cols, c.toNat < s.ncols.toNat) :
    matrixCommand i rows cols f s = performed (f s) := by
  have h1 : rows.all (rowInRange s) = true := by simpa [rowInRange] using hrow
  have h2 : cols.all (colInRange s) = true := by simpa [colInRange] using hcol
  simp [matrixCommand, hcfg, h1, h2]

/-- R82, R186: everything a matrix command can answer: one of the three errors, or its performance with every check
passed. -/
theorem matrixCommand_cases (i : Instr) (rows cols : List Index) (f : State → Except Fault State) (s : State) :
    (cfgValid s = false ∧ matrixCommand i rows cols f s = .next (raise .cfgInvalid (encode i) s)) ∨
    (cfgValid s = true ∧ (∃ r ∈ rows, s.nrows.toNat ≤ r.toNat) ∧
      matrixCommand i rows cols f s = .next (raise .rowRange (encode i) s)) ∨
    (cfgValid s = true ∧ (∀ r ∈ rows, r.toNat < s.nrows.toNat) ∧ (∃ c ∈ cols, s.ncols.toNat ≤ c.toNat) ∧
      matrixCommand i rows cols f s = .next (raise .colRange (encode i) s)) ∨
    (cfgValid s = true ∧ (∀ r ∈ rows, r.toNat < s.nrows.toNat) ∧ (∀ c ∈ cols, c.toNat < s.ncols.toNat) ∧
      matrixCommand i rows cols f s = performed (f s)) := by
  cases hcfg : cfgValid s with
  | false => left; simp [matrixCommand, hcfg]
  | true =>
    by_cases hrow : ∀ r ∈ rows, r.toNat < s.nrows.toNat
    · have h1 : rows.all (rowInRange s) = true := by simpa [rowInRange] using hrow
      by_cases hcol : ∀ c ∈ cols, c.toNat < s.ncols.toNat
      · exact .inr (.inr (.inr ⟨rfl, hrow, hcol, matrixCommand_passes i rows cols f s hcfg hrow hcol⟩))
      · have h2 : cols.all (colInRange s) = false := by
          rw [Bool.eq_false_iff]; intro h; exact hcol (by simpa [colInRange] using h)
        refine .inr (.inr (.inl ⟨rfl, hrow, ?_, by simp [matrixCommand, hcfg, h1, h2]⟩))
        push Not at hcol; exact hcol
    · have h1 : rows.all (rowInRange s) = false := by
        rw [Bool.eq_false_iff]; intro h; exact hrow (by simpa [rowInRange] using h)
      refine .inr (.inl ⟨rfl, ?_, by simp [matrixCommand, hcfg, h1]⟩)
      push Not at hrow; exact hrow

theorem performed_next_iff (o : Except Fault State) (t : State) : performed o = .next t ↔ o = .ok t := by
  cases o <;> simp [performed]

theorem performed_fault_iff (o : Except Fault State) (f : Fault) : performed o = .fault f ↔ o = .error f := by
  cases o <;> simp [performed]

theorem performed_not_refused (o : Except Fault State) (r : Refusal) : performed o ≠ .refused r := by
  cases o <;> simp [performed]

/-! ### The column loop -/

/-- What holds before the first column, and passes from each column to the next, holds at the end. -/
theorem forColumns_induct {body : Nat → State → Except Fault State} {n : Nat} {s t : State}
    (P : Nat → State → Prop) (h0 : P 0 s)
    (hstep : ∀ c u v, c < n → P c u → body c u = .ok v → P (c + 1) v)
    (h : forColumns body n s = .ok t) : P n t := by
  induction n generalizing t with
  | zero => simp only [forColumns, Except.ok.injEq] at h; exact h ▸ h0
  | succ n ih =>
    simp only [forColumns] at h
    cases hu : forColumns body n s with
    | error f => simp [hu] at h
    | ok u =>
      simp only [hu] at h
      exact hstep n u t (by omega) (ih (fun c u v hc => hstep c u v (by omega)) hu) h

/-- A loop each of whose columns completes, completes; what each column establishes holds at the end. -/
theorem forColumns_completes {body : Nat → State → Except Fault State} {n : Nat} {s : State}
    (P : Nat → State → Prop) (h0 : P 0 s)
    (hstep : ∀ c u, c < n → P c u → ∃ v, body c u = .ok v ∧ P (c + 1) v) :
    ∃ t, forColumns body n s = .ok t ∧ P n t := by
  induction n with
  | zero => exact ⟨s, rfl, h0⟩
  | succ n ih =>
    obtain ⟨u, hu, hp⟩ := ih fun c u hc => hstep c u (by omega)
    obtain ⟨v, hv, hq⟩ := hstep n u (by omega) hp
    exact ⟨v, by simp only [forColumns, hu, hv], hq⟩

/-- The states between the columns of a loop that completes. -/
theorem forColumns_states {body : Nat → State → Except Fault State} {n : Nat} {s t : State}
    (h : forColumns body n s = .ok t) :
    ∃ st : Nat → State, st 0 = s ∧ st n = t ∧ ∀ c, c < n → body c (st c) = .ok (st (c + 1)) := by
  induction n generalizing t with
  | zero =>
    simp only [forColumns, Except.ok.injEq] at h
    exact ⟨fun _ => s, rfl, h, fun c hc => by omega⟩
  | succ n ih =>
    simp only [forColumns] at h
    cases hu : forColumns body n s with
    | error f => simp [hu] at h
    | ok u =>
      simp only [hu] at h
      obtain ⟨st, h0, hn, hst⟩ := ih hu
      refine ⟨fun c => if c = n + 1 then t else st c, by simpa using h0, by simp, fun c hc => ?_⟩
      by_cases hcn : c = n
      · subst hcn; simp [hn, h]
      · simp only [Nat.add_right_cancel_iff, hcn, if_false]
        rw [if_neg (by omega)]
        exact hst c (by omega)

/-! ### One column of each primitive -/

theorem withCell_ok_iff (s : State) (r c : Nat) (k : Block → Except Fault State) (t : State) :
    withCell s r c k = .ok t ↔ ∃ X, readCell s r c = .ok X ∧ k X = .ok t := by
  unfold withCell
  cases readCell s r c with
  | error f => simp
  | ok X => simp

theorem withCell_of_ok {s : State} {r c : Nat} {X : Block} (h : readCell s r c = .ok X)
    (k : Block → Except Fault State) : withCell s r c k = k X := by
  simp only [withCell, h]

/-- R121: one column of SEED_ROW0. -/
theorem seedColumn_eq (rowOut n c : Nat) (s : State) :
    seedColumn rowOut n c s
      = .ok ((writeCell s rowOut (n - 1 - c) (rate s.S)).withS (reducedPermutation s.S)) := by
  simp [seedColumn]

/-- R122: one column of DUPLEX_ROW1. -/
theorem row1Column_ok_iff (rowIn rowOut n c : Nat) (s t : State) :
    row1Column rowIn rowOut n c s = .ok t ↔ ∃ X, readCell s rowIn c = .ok X ∧
      t = writeCell (s.withS (reducedPermutation (xorRate s.S X))) rowOut (n - 1 - c)
        (blockXor X (rate (reducedPermutation (xorRate s.S X)))) := by
  simp only [row1Column, withCell_ok_iff, Except.ok.injEq, State.withS_S, eq_comm (b := t)]

/-- R123: one column of DUPLEX_SETUP. -/
theorem setupColumn_ok_iff (rowIn rowInOut rowOut n c : Nat) (s t : State) :
    setupColumn rowIn rowInOut rowOut n c s = .ok t ↔
      ∃ X Y S Z, readCell s rowIn c = .ok X ∧ readCell s rowInOut c = .ok Y ∧
        S = reducedPermutation (xorRate s.S (blockAdd X Y)) ∧
        readCell (writeCell (s.withS S) rowOut (n - 1 - c) (blockXor X (rate S))) rowInOut c = .ok Z ∧
        t = writeCell (writeCell (s.withS S) rowOut (n - 1 - c) (blockXor X (rate S))) rowInOut c
          (blockXor Z (rotW (rate S))) := by
  simp only [setupColumn, withCell_ok_iff, Except.ok.injEq, State.withS_S, writeCell_S, eq_comm (b := t)]
  constructor
  · rintro ⟨X, hX, Y, hY, Z, hZ, ht⟩; exact ⟨X, Y, _, Z, hX, hY, rfl, hZ, ht⟩
  · rintro ⟨X, Y, S, Z, hX, hY, rfl, hZ, ht⟩; exact ⟨X, hX, Y, hY, Z, hZ, ht⟩

/-- R124: one column of DUPLEX_WANDER. -/
theorem wanderColumn_ok_iff (rowIn rowInOut rowOut c : Nat) (s t : State) :
    wanderColumn rowIn rowInOut rowOut c s = .ok t ↔
      ∃ X Y S W Z, readCell s rowIn c = .ok X ∧ readCell s rowInOut c = .ok Y ∧
        S = reducedPermutation (xorRate s.S (blockAdd X Y)) ∧ readCell s rowOut c = .ok W ∧
        readCell (writeCell (s.withS S) rowOut c (blockXor W (rate S))) rowInOut c = .ok Z ∧
        t = writeCell (writeCell (s.withS S) rowOut c (blockXor W (rate S))) rowInOut c
          (blockXor Z (rotW (rate S))) := by
  simp only [wanderColumn, withCell_ok_iff, Except.ok.injEq, State.withS_S, writeCell_S, readCell_withS,
    eq_comm (b := t)]
  constructor
  · rintro ⟨X, hX, Y, hY, W, hW, Z, hZ, ht⟩; exact ⟨X, Y, _, W, Z, hX, hY, rfl, hW, hZ, ht⟩
  · rintro ⟨X, Y, S, W, Z, hX, hY, rfl, hW, hZ, ht⟩; exact ⟨X, hX, Y, hY, W, hW, Z, hZ, ht⟩

/-! ### cfgValid() -/

/-- R183: the bounds that a valid configuration gives. -/
theorem cfgValid_bounds {s : State} (h : cfgValid s = true) :
    1 ≤ s.nrows.toNat ∧ s.nrows.toNat ≤ 65536 ∧ 1 ≤ s.ncols.toNat ∧ s.ncols.toNat ≤ 65536 ∧
      s.nrows.toNat * s.ncols.toNat * 12 ≤ s.params.memWords.toNat := by
  simp only [cfgValid, Bool.and_eq_true, decide_eq_true_eq, bne_iff_ne, ne_eq] at h
  obtain ⟨⟨⟨⟨⟨h0, _⟩, h2⟩, h3⟩, h4⟩, h5⟩ := h
  refine ⟨?_, h2, h3, h4, h5⟩
  rcases Nat.eq_zero_or_pos s.nrows.toNat with hz | hp
  · exact absurd (BitVec.eq_of_toNat_eq (by simpa using hz)) h0
  · exact hp

/-- R43, R110: a cell of a valid configuration lies below MEM_WORDS. -/
theorem cellAddr_inside {s : State} (h : cfgValid s = true) {r c : Nat} (hr : r < s.nrows.toNat)
    (hc : c < s.ncols.toNat) : cellAddr s r c + 12 ≤ s.params.memWords.toNat := by
  obtain ⟨_, _, _, _, h5⟩ := cfgValid_bounds h
  have h1 := Nat.mul_le_mul_right s.ncols.toNat (Nat.succ_le_of_lt hr)
  simp only [Nat.succ_mul] at h1
  unfold cellAddr
  omega

end Sys2Proof.Machine
end

