-- ==== Sys2Proof/Laws/Decode.lean ====
section
/-! SUPPORT. The fields of a command word and the word of its fields (R60, R61). -/

namespace Sys2Proof

/-- R60, R61: packing fields into a word and extracting them again gives them back. -/
@[simp] theorem fieldsOf_packFields (r : RawCommand) : fieldsOf (packFields r) = r := by
  obtain ⟨op, a, b, c, rsv⟩ := r
  simp only [fieldsOf, packFields, RawCommand.mk.injEq]
  refine ⟨?_, ?_, ?_, ?_, ?_⟩ <;>
  · ext i hi
    simp only [BitVec.getElem_extractLsb', BitVec.getLsbD_append]
    grind

/-- R60, R61: extracting the fields of a word and packing them again gives it back: no bit is dropped. -/
@[simp] theorem packFields_fieldsOf (v : Word) : packFields (fieldsOf v) = v := by
  refine BitVec.eq_of_getLsbD_eq fun i hi => ?_
  simp only [fieldsOf, packFields, BitVec.getLsbD_append, BitVec.getLsbD_extractLsb']
  grind

/-- The decoder reads a packed word by its fields. -/
theorem decode_packFields (r : RawCommand) : decode (packFields r) = decodeFields r := by
  simp [decode]

/-- The decoder answers exactly where the OP value is listed, RSV is 0 and the unused fields are 0. -/
theorem decodeFields_ok_iff (r : RawCommand) (i : Instr) :
    decodeFields r = .ok i ↔ commandOf r = some i ∧ r.rsv = 0 ∧ unusedNonzero r = false := by
  unfold decodeFields
  cases h : commandOf r with
  | none => simp
  | some j =>
    simp only [Option.some.injEq]
    by_cases h1 : r.rsv = 0#8
    · by_cases h2 : unusedNonzero r = true
      · simp [h1, h2]
      · simp [h1, h2]
    · simp [h1]

end Sys2Proof
end

