-- ==== Sys2Proof/Laws/Frames.lean ====
section
/-! SUPPORT. What the column loops and the commands can change: everything `exec` can do, said once. -/

namespace Sys2Proof.Machine

/-! ### Rows -/

theorem inRow_congr {s t : State} (h : t.ncols = s.ncols) (r a : Nat) : inRow t r a ↔ inRow s r a := by
  simp only [inRow, inCell, cellAddr, h]

/-- R43: two different rows share no word. -/
theorem inRow_disjoint {s : State} {r r' a : Nat} (h : r ≠ r') (h1 : inRow s r a) : ¬ inRow s r' a := by
  rintro ⟨c', hc', h2⟩
  obtain ⟨c, hc, h1⟩ := h1
  have := cellAddr_apart s hc hc' (.inl h)
  unfold inCell at h1 h2
  omega

/-- A cell is written exactly when it can be read. -/
theorem cellWritten_iff {s : State} {r c : Nat} : CellWritten s r c ↔ ∃ X, readCell s r c = .ok X := by
  constructor
  · intro h
    choose f hf using h
    exact ⟨Vector.ofFn fun j => f j j.2, (readCell_ok_iff _ _ _ _).mpr fun j h => by simpa using hf j h⟩
  · rintro ⟨X, h⟩ j hj
    exact ⟨_, (readCell_ok_iff _ _ _ _).mp h j hj⟩

/-- A row is written exactly when each of its cells can be read. -/
theorem rowWritten_iff {s : State} {r : Nat} :
    RowWritten s r ↔ ∀ c, c < s.ncols.toNat → ∃ X, readCell s r c = .ok X := by
  simp only [RowWritten, cellWritten_iff]

/-- Which cells of a row must be readable before a command that writes row `rowOut` in descending columns. -/
theorem writtenWhereReadFirst_iff {s : State} {r rowOut : Nat} :
    WrittenWhereReadFirst s r rowOut ↔
      ∀ c, c < s.ncols.toNat → (r = rowOut → c < s.ncols.toNat - c) → ∃ X, readCell s r c = .ok X := by
  simp only [WrittenWhereReadFirst, cellWritten_iff]

/-- A row that is wholly written is written wherever a command reads it. -/
theorem RowWritten.writtenWhereReadFirst {s : State} {r : Nat} (h : RowWritten s r) (rowOut : Nat) :
    WrittenWhereReadFirst s r rowOut := fun c hc _ => h c hc

/-! ### The frame of a column loop -/

/-- From s to t only S and words of the given rows change, and the canonical form is kept. -/
structure RowsFrame (rows : List Nat) (s t : State) : Prop where
  control : OnlySMatrix s t
  outside : ∀ a, (∀ r ∈ rows, ¬ inRow s r a) → Memory.lookup t.matrix a = Memory.lookup s.matrix a
  canonical : Memory.wf s.matrix → Memory.wf t.matrix
  listed : ∀ e ∈ t.matrix, (∃ r ∈ rows, inRow s r e.1) ∨ e ∈ s.matrix

theorem RowsFrame.ncols {rows : List Nat} {s t : State} (h : RowsFrame rows s t) : t.ncols = s.ncols := by
  rw [h.control]

theorem RowsFrame.refl (rows : List Nat) (s : State) : RowsFrame rows s s :=
  ⟨rfl, fun _ _ => rfl, id, fun _ h => .inr h⟩

theorem RowsFrame.trans {rows : List Nat} {s t u : State} (h1 : RowsFrame rows s t) (h2 : RowsFrame rows t u) :
    RowsFrame rows s u := by
  refine ⟨?_, fun a ha => ?_, fun h => h2.canonical (h1.canonical h), fun e he => ?_⟩
  · have a := h1.control
    have b := h2.control
    unfold OnlySMatrix at *
    rw [b, a]
  · rw [h2.outside a fun r hr => by rw [inRow_congr h1.ncols]; exact ha r hr, h1.outside a ha]
  · rcases h2.listed e he with ⟨r, hr, h⟩ | h
    · exact .inl ⟨r, hr, (inRow_congr h1.ncols r e.1).mp h⟩
    · exact h1.listed e h

theorem RowsFrame.withS (rows : List Nat) (s : State) (S : Sponge) : RowsFrame rows s (s.withS S) :=
  ⟨rfl, fun _ _ => rfl, id, fun _ h => .inr h⟩

theorem RowsFrame.writeCell {rows : List Nat} (s : State) {r c : Nat} (X : Block) (hr : r ∈ rows)
    (hc : c < s.ncols.toNat) : RowsFrame rows s (writeCell s r c X) := by
  refine ⟨rfl, fun a ha => ?_, writeCell_wf s r c X, fun e he => ?_⟩
  · refine lookup_writeCell_other s r c X a ?_
    by_contra h
    exact ha r hr ⟨c, hc, by unfold inCell; omega⟩
  · rcases mem_writeCell he with h | h
    · exact .inl ⟨r, hr, c, hc, h⟩
    · exact .inr h

/-- A loop each of whose columns keeps the frame keeps it. -/
theorem RowsFrame.forColumns {rows : List Nat} {body : Nat → State → Except Fault State} {n : Nat} {s t : State}
    (hstep : ∀ c u v, c < n → u.ncols = s.ncols → body c u = .ok v → RowsFrame rows u v)
    (h : forColumns body n s = .ok t) : RowsFrame rows s t :=
  forColumns_induct (fun _ u => RowsFrame rows s u) (RowsFrame.refl rows s)
    (fun c u v hc hu hb => hu.trans (hstep c u v hc hu.ncols hb)) h

/-- R121, R44: SEED_ROW0 writes only row rowOut. -/
theorem seedRow0_frame {s t : State} {o : Nat}
    (h : forColumns (seedColumn o s.ncols.toNat) s.ncols.toNat s = .ok t) : RowsFrame [o] s t := by
  refine RowsFrame.forColumns (fun c u v hc hu hb => ?_) h
  rw [seedColumn_eq, Except.ok.injEq] at hb
  rw [← hb]
  exact (RowsFrame.writeCell u _ (by simp) (by rw [hu]; omega)).trans (RowsFrame.withS _ _ _)

/-- R122, R126: DUPLEX_ROW1 writes only row rowOut. -/
theorem duplexRow1_frame {s t : State} {i o : Nat}
    (h : forColumns (row1Column i o s.ncols.toNat) s.ncols.toNat s = .ok t) : RowsFrame [o] s t := by
  refine RowsFrame.forColumns (fun c u v hc hu hb => ?_) h
  obtain ⟨X, _, hb⟩ := (row1Column_ok_iff _ _ _ _ _ _).mp hb
  rw [hb]
  exact (RowsFrame.withS _ u _).trans (RowsFrame.writeCell _ _ (by simp) (by rw [State.withS_ncols, hu]; omega))

/-- R123, R126: DUPLEX_SETUP writes only rows rowOut and rowInOut. -/
theorem duplexSetup_frame {s t : State} {i io o : Nat}
    (h : forColumns (setupColumn i io o s.ncols.toNat) s.ncols.toNat s = .ok t) : RowsFrame [o, io] s t := by
  refine RowsFrame.forColumns (fun c u v hc hu hb => ?_) h
  obtain ⟨X, Y, S, Z, _, _, _, _, hb⟩ := (setupColumn_ok_iff _ _ _ _ _ _ _).mp hb
  rw [hb]
  exact ((RowsFrame.withS _ u S).trans
    (RowsFrame.writeCell _ _ (by simp) (by rw [State.withS_ncols, hu]; omega))).trans
    (RowsFrame.writeCell _ _ (by simp) (by rw [writeCell_ncols, State.withS_ncols, hu]; omega))

/-- R124, R126: DUPLEX_WANDER writes only rows rowOut and rowInOut. -/
theorem duplexWander_frame {s t : State} {i io o : Nat}
    (h : forColumns (wanderColumn i io o) s.ncols.toNat s = .ok t) : RowsFrame [o, io] s t := by
  refine RowsFrame.forColumns (fun c u v hc hu hb => ?_) h
  obtain ⟨X, Y, S, W, Z, _, _, _, _, _, hb⟩ := (wanderColumn_ok_iff _ _ _ _ _ _).mp hb
  rw [hb]
  exact ((RowsFrame.withS _ u S).trans
    (RowsFrame.writeCell _ _ (by simp) (by rw [State.withS_ncols, hu]; omega))).trans
    (RowsFrame.writeCell _ _ (by simp) (by rw [writeCell_ncols, State.withS_ncols, hu]; omega))

/-! ### Everything a command can do -/

/-- R82: the command failed a check, and `raise` is all it did. -/
def CheckFailed (i : Instr) (s t : State) : Prop :=
  t = raise .cfgInvalid (encode i) s ∨ t = raise .rowRange (encode i) s ∨ t = raise .colRange (encode i) s

/-- The command was performed: the frame of its effect. -/
structure Performed (i : Instr) (s t : State) : Prop where
  control : OnlyDatapath s t
  outside : SameOutside s t (writesTo s i)
  canonical : Memory.wf s.matrix → Memory.wf t.matrix
  listed : ∀ e ∈ t.matrix, e ∈ s.matrix ∨ (cfgValid s = true ∧ (∀ r ∈ rowOperands i, r.toNat < s.nrows.toNat) ∧
    (∀ c ∈ colOperands i, c.toNat < s.ncols.toNat) ∧ writesTo s i e.1)
  keepsD : changesD i = false → t.D = s.D
  keepsS : changesS i = false → t.S = s.S

/-- A matrix command answers a next state by failing a check or by performing. -/
theorem matrixCommand_next {i : Instr} {rows cols : List Index} {f : State → Except Fault State} {s t : State}
    (h : matrixCommand i rows cols f s = .next t) :
    CheckFailed i s t ∨ (cfgValid s = true ∧ (∀ r ∈ rows, r.toNat < s.nrows.toNat) ∧
      (∀ c ∈ cols, c.toNat < s.ncols.toNat) ∧ f s = .ok t) := by
  rcases matrixCommand_cases i rows cols f s with ⟨_, h'⟩ | ⟨_, _, h'⟩ | ⟨_, _, _, h'⟩ | ⟨h1, h2, h3, h'⟩
  · rw [h', Host.Outcome.next.injEq] at h; exact .inl (.inl h.symm)
  · rw [h', Host.Outcome.next.injEq] at h; exact .inl (.inr (.inl h.symm))
  · rw [h', Host.Outcome.next.injEq] at h; exact .inl (.inr (.inr h.symm))
  · rw [h', performed_next_iff] at h; exact .inr ⟨h1, h2, h3, h⟩

/-- A matrix command faults only in its performance, with every check passed. -/
theorem matrixCommand_fault {i : Instr} {rows cols : List Index} {f : State → Except Fault State} {s : State}
    {x : Fault} (h : matrixCommand i rows cols f s = .fault x) :
    cfgValid s = true ∧ (∀ r ∈ rows, r.toNat < s.nrows.toNat) ∧ (∀ c ∈ cols, c.toNat < s.ncols.toNat) ∧
      f s = .error x := by
  rcases matrixCommand_cases i rows cols f s with ⟨_, h'⟩ | ⟨_, _, h'⟩ | ⟨_, _, _, h'⟩ | ⟨h1, h2, h3, h'⟩
  · rw [h'] at h; cases h
  · rw [h'] at h; cases h
  · rw [h'] at h; cases h
  · rw [h', performed_fault_iff] at h; exact ⟨h1, h2, h3, h⟩

/-- No matrix command is refused. -/
theorem matrixCommand_not_refused (i : Instr) (rows cols : List Index) (f : State → Except Fault State) (s : State)
    (x : Refusal) : matrixCommand i rows cols f s ≠ .refused x := by
  rcases matrixCommand_cases i rows cols f s with ⟨_, h'⟩ | ⟨_, _, h'⟩ | ⟨_, _, _, h'⟩ | ⟨_, _, _, h'⟩
  · rw [h']; simp
  · rw [h']; simp
  · rw [h']; simp
  · rw [h']; exact performed_not_refused _ x

/-- A command that only sets S and D. -/
theorem Performed.ofRegisters (i : Instr) (s : State) (S : Sponge) (D : Block)
    (hS : changesS i = true ∨ S = s.S) (hD : changesD i = true ∨ D = s.D) :
    Performed i s ((s.withD D).withS S) := by
  refine ⟨rfl, fun _ _ => rfl, id, fun _ h => .inl h, fun h => ?_, fun h => ?_⟩
  · rcases hD with hD | hD
    · rw [hD] at h; cases h
    · exact hD
  · rcases hS with hS | hS
    · rw [hS] at h; cases h
    · exact hS

/-- A command that performs a column loop. -/
theorem Performed.ofRows {i : Instr} {rows : List Nat} {s t : State} (f : RowsFrame rows s t)
    (hcfg : cfgValid s = true) (hrow : ∀ r ∈ rowOperands i, r.toNat < s.nrows.toNat) (hcol : colOperands i = [])
    (hw : ∀ a, writesTo s i a ↔ ∃ r ∈ rows, inRow s r a) (hS : changesS i = true) :
    Performed i s t := by
  have hc := f.control
  refine ⟨?_, fun a ha => f.outside a fun r hr h => ha ((hw a).mpr ⟨r, hr, h⟩), f.canonical, fun e he => ?_,
    fun _ => by rw [hc], fun h => by rw [hS] at h; cases h⟩
  · unfold OnlyDatapath
    unfold OnlySMatrix at hc
    rw [hc]
  · rcases f.listed e he with h | h
    · exact .inr ⟨hcfg, hrow, by simp [hcol], (hw e.1).mpr h⟩
    · exact .inl h

/-- Everything a command can do when it answers a next state: fail a check, or perform within its frame. -/
theorem exec_next_cases {i : Instr} {s t : State} (h : exec i s = .next t) : CheckFailed i s t ∨ Performed i s t := by
  cases i with
  | nop =>
    simp only [exec, execNop, Host.Outcome.next.injEq] at h
    exact h ▸ .inr (Performed.ofRegisters .nop s s.S s.D (.inr rfl) (.inr rfl))
  | init =>
    simp only [exec, execInit, Host.Outcome.next.injEq] at h
    exact h ▸ .inr (Performed.ofRegisters .init s _ s.D (.inl rfl) (.inr rfl))
  | permFull =>
    simp only [exec, execPermFull, Host.Outcome.next.injEq] at h
    exact h ▸ .inr (Performed.ofRegisters .permFull s _ s.D (.inl rfl) (.inr rfl))
  | permRed =>
    simp only [exec, execPermRed, Host.Outcome.next.injEq] at h
    exact h ▸ .inr (Performed.ofRegisters .permRed s _ s.D (.inl rfl) (.inr rfl))
  | absorb =>
    simp only [exec, execAbsorb, Host.Outcome.next.injEq] at h
    exact h ▸ .inr (Performed.ofRegisters .absorb s _ s.D (.inl rfl) (.inr rfl))
  | absorbSafe =>
    simp only [exec, execAbsorbSafe, Host.Outcome.next.injEq] at h
    exact h ▸ .inr (Performed.ofRegisters .absorbSafe s _ s.D (.inl rfl) (.inr rfl))
  | squeeze =>
    simp only [exec, execSqueeze, Host.Outcome.next.injEq] at h
    exact h ▸ .inr (Performed.ofRegisters .squeeze s _ _ (.inl rfl) (.inl rfl))
  | blkRead row col =>
    simp only [exec, execBlkRead] at h
    refine (matrixCommand_next h).imp id fun ⟨_, _, _, hp⟩ => ?_
    obtain ⟨X, _, hX⟩ := (withCell_ok_iff _ _ _ _ _).mp hp
    rw [Except.ok.injEq] at hX
    exact hX ▸ Performed.ofRegisters (.blkRead row col) s s.S X (.inr rfl) (.inl rfl)
  | blkWrite row col =>
    simp only [exec, execBlkWrite] at h
    refine (matrixCommand_next h).imp id fun ⟨hcfg, hrow, hcol, hp⟩ => ?_
    rw [Except.ok.injEq] at hp
    rw [← hp]
    refine ⟨rfl, fun a ha => ?_, writeCell_wf _ _ _ _, fun e he => ?_, fun _ => rfl, fun _ => rfl⟩
    · refine lookup_writeCell_other _ _ _ _ a ?_
      simp only [writesTo, inCell] at ha
      omega
    · exact (mem_writeCell he).elim (fun h => .inr ⟨hcfg, hrow, hcol, h⟩) .inl
  | seedRow0 rowOut =>
    simp only [exec, execSeedRow0] at h
    refine (matrixCommand_next h).imp id fun ⟨hcfg, hrow, _, hp⟩ => ?_
    exact Performed.ofRows (seedRow0_frame hp) hcfg hrow rfl (fun a => by simp [writesTo]) rfl
  | duplexRow1 rowIn rowOut =>
    simp only [exec, execDuplexRow1] at h
    refine (matrixCommand_next h).imp id fun ⟨hcfg, hrow, _, hp⟩ => ?_
    exact Performed.ofRows (duplexRow1_frame hp) hcfg hrow rfl (fun a => by simp [writesTo]) rfl
  | duplexSetup rowIn rowInOut rowOut =>
    simp only [exec, execDuplexSetup] at h
    refine (matrixCommand_next h).imp id fun ⟨hcfg, hrow, _, hp⟩ => ?_
    exact Performed.ofRows (duplexSetup_frame hp) hcfg hrow rfl (fun a => by simp [writesTo]) rfl
  | duplexWander rowIn rowInOut rowOut =>
    simp only [exec, execDuplexWander] at h
    refine (matrixCommand_next h).imp id fun ⟨hcfg, hrow, _, hp⟩ => ?_
    exact Performed.ofRows (duplexWander_frame hp) hcfg hrow rfl (fun a => by simp [writesTo]) rfl

end Sys2Proof.Machine
end

