-- ==== Sys2Proof/Laws/Operands.lean ====
section
/-! SUPPORT. What each block operation gives, word by word. -/

namespace Sys2Proof.Machine

@[simp] theorem getElem_blockXor (X Y : Block) (j : Nat) (h : j < 12) : (blockXor X Y)[j] = X[j] ^^^ Y[j] := by
  simp [blockXor]

@[simp] theorem getElem_blockAdd (X Y : Block) (j : Nat) (h : j < 12) : (blockAdd X Y)[j] = X[j] + Y[j] := by
  simp [blockAdd]

@[simp] theorem getElem_rotW (X : Block) (j : Nat) (h : j < 12) :
    (rotW X)[j] = X[(j + 11) % 12]'(Nat.mod_lt _ (by decide)) := by
  simp [rotW]

@[simp] theorem getElem_rate (S : Sponge) (j : Nat) (h : j < 12) : (rate S)[j] = S[j] := by
  simp [rate]

/-- R98: words 0 to 11 are XORed with the block. -/
@[simp] theorem getElem_xorRate_lt (S : Sponge) (X : Block) (j : Nat) (h : j < 12) :
    (xorRate S X)[j] = S[j] ^^^ X[j] := by
  simp [xorRate, h]

/-- R98: the capacity receives no input. -/
theorem getElem_xorRate_ge (S : Sponge) (X : Block) (j : Nat) (h : j < 16) (hj : 12 ≤ j) :
    (xorRate S X)[j] = S[j] := by
  simp [xorRate, Nat.not_lt.mpr hj]

/-- R99: words 0 to 7 are XORed with D[0..7]. -/
theorem getElem_xorSafeRate_lt (S : Sponge) (X : Block) (j : Nat) (h : j < 8) :
    (xorSafeRate S X)[j] = S[j] ^^^ X[j] := by
  simp [xorSafeRate, h]

/-- R99: S[8..15] receive no input. -/
theorem getElem_xorSafeRate_ge (S : Sponge) (X : Block) (j : Nat) (h : j < 16) (hj : 8 ≤ j) :
    (xorSafeRate S X)[j] = S[j] := by
  simp [xorSafeRate, Nat.not_lt.mpr hj]

/-- R95: the low half of the INIT state is zero. -/
theorem getElem_initSponge_lt (i : Nat) (h : i < 8) : initSponge[i] = 0 := by
  simp [initSponge, h]

/-- R95: the high half of the INIT state is the IV. -/
theorem getElem_initSponge_ge (i : Nat) (h : i < 8) : initSponge[8 + i] = iv[i] := by
  simp [initSponge]

/-- R93: the reduced permutation is one round. -/
theorem reducedPermutation_eq (S : Sponge) : reducedPermutation S = spongeRound S := rfl

/-- The round commutes with its own iteration. -/
theorem rounds_succ (n : Nat) (S : Sponge) : rounds (n + 1) S = spongeRound (rounds n S) := by
  induction n generalizing S with
  | zero => rfl
  | succ n ih => exact ih (spongeRound S)

/-- R92: n rounds are the round iterated n times. -/
theorem rounds_eq_iterate (n : Nat) (S : Sponge) : rounds n S = spongeRound^[n] S := by
  induction n generalizing S with
  | zero => rfl
  | succ n ih => rw [rounds, ih, Function.iterate_succ_apply]

/-- R13: ROTR is the bit vector's rotation to the right. -/
theorem rotr_eq_rotateRight (x : Word) (n : Nat) (h : n < 64) : rotr x n = x.rotateRight n := by
  simp [rotr, BitVec.rotateRight, BitVec.rotateRightAux, Nat.mod_eq_of_lt h]

end Sys2Proof.Machine
end

