-- ==== Sys2Proof/Laws/PerInstr.lean ====
section
/-! SUPPORT. For each command: the fields of its word are those of the opcode map, and they are well formed. -/

namespace Sys2Proof

/-- R65, R66: the fields of the command's word are the ones the opcode map gives it, and they pass every check of a
legal command. -/
def Laws.Fields.Statement (i : Instr) : Prop :=
  fieldsOf (encode i) = fieldsFor i ∧ (fieldsFor i).wellFormed = true

theorem Laws.Fields.nop : Laws.Fields.Statement .nop := ⟨fieldsOf_packFields _, by decide⟩
theorem Laws.Fields.init : Laws.Fields.Statement .init := ⟨fieldsOf_packFields _, by decide⟩
theorem Laws.Fields.permFull : Laws.Fields.Statement .permFull := ⟨fieldsOf_packFields _, by decide⟩
theorem Laws.Fields.permRed : Laws.Fields.Statement .permRed := ⟨fieldsOf_packFields _, by decide⟩
theorem Laws.Fields.absorb : Laws.Fields.Statement .absorb := ⟨fieldsOf_packFields _, by decide⟩
theorem Laws.Fields.absorbSafe : Laws.Fields.Statement .absorbSafe := ⟨fieldsOf_packFields _, by decide⟩
theorem Laws.Fields.squeeze : Laws.Fields.Statement .squeeze := ⟨fieldsOf_packFields _, by decide⟩
theorem Laws.Fields.blkRead (row col : Index) : Laws.Fields.Statement (.blkRead row col) :=
  ⟨fieldsOf_packFields _, by rfl⟩
theorem Laws.Fields.blkWrite (row col : Index) : Laws.Fields.Statement (.blkWrite row col) :=
  ⟨fieldsOf_packFields _, by rfl⟩
theorem Laws.Fields.seedRow0 (rowOut : Index) : Laws.Fields.Statement (.seedRow0 rowOut) :=
  ⟨fieldsOf_packFields _, by rfl⟩
theorem Laws.Fields.duplexRow1 (rowIn rowOut : Index) : Laws.Fields.Statement (.duplexRow1 rowIn rowOut) :=
  ⟨fieldsOf_packFields _, by rfl⟩
theorem Laws.Fields.duplexSetup (rowIn rowInOut rowOut : Index) :
    Laws.Fields.Statement (.duplexSetup rowIn rowInOut rowOut) := ⟨fieldsOf_packFields _, by rfl⟩
theorem Laws.Fields.duplexWander (rowIn rowInOut rowOut : Index) :
    Laws.Fields.Statement (.duplexWander rowIn rowInOut rowOut) := ⟨fieldsOf_packFields _, by rfl⟩

end Sys2Proof
end

