-- ==== Sys2Proof/Machine/HostLyra2.lean ====
section
/-! DEFINITION. The host's command sequences: the pseudo-instructions of 30_encoding.md R70 and R71, and the
`derive` of 49_host_lyra2.md R150 to R163. They bind a conforming host, not the block (00_scope.md R5), so no
step of the machine uses them; they put on `State.bus` what such a host does. -/

namespace Sys2Proof.Machine

/-! ### Host bus operations and pseudo-instructions (R70, R71) -/

/-- R70: `WR`, a 64-bit write at a register offset. -/
def wr (p : Params) (off : Nat) (v : Word) : BusEvent := .write (p.blockBase + BitVec.ofNat 64 off) 8 v

/-- R70: `RD`, a 64-bit read at a register offset. -/
def rd (p : Params) (off : Nat) : BusEvent := .read (p.blockBase + BitVec.ofNat 64 off) 8

/-- R70: `WAIT`; the poll that ends it comes after the sequencer's step. -/
def wait (p : Params) : List BusEvent := [.sequencer, rd p 0x008]

/-- R70: a command mnemonic means `WR CMD` of its encoding, then `WAIT`. -/
def command (p : Params) (i : Instr) : List BusEvent := wr p 0x000 (encode i) :: wait p

/-- Writes to consecutive 8-byte registers. -/
def loadFrom (p : Params) (off : Nat) : List Word → List BusEvent
  | [] => []
  | v :: vs => wr p off v :: loadFrom p (off + 8) vs

/-- R71: `LOAD_D`. -/
def loadD (p : Params) (X : Block) : List BusEvent := loadFrom p 0x100 X.toList

/-- R71: `LOAD_S`. -/
def loadS (p : Params) (S : Sponge) : List BusEvent := loadFrom p 0x080 S.toList

/-- R71: `ABSORB_CELL r, c`. -/
def absorbCell (p : Params) (r c : Index) : List BusEvent := command p (.blkRead r c) ++ command p .absorb

/-- R71: `ABSORB_ROW r`. -/
def absorbRow (p : Params) (r : Index) : List BusEvent := absorbCell p r 0

/-! ### Interface, validation and the padded input (R150 to R155) -/

/-- R150: the arguments of `derive`. -/
structure DeriveArgs where
  password : List Byte
  salt : List Byte
  outLen : Nat
  timeCost : Nat
  nRows : Nat
  nCols : Nat
  deriving DecidableEq, Repr

/-- R151, R152: the host refuses the call unless every one of these holds; `memWords` is what it read from MEMWORDS.
DESIGN CHOICE (log 15): the spec does not say when the host reads MEMWORDS. Here `derive` reads it once in each call,
as its first access. -/
def deriveValid (memWords : Word) (a : DeriveArgs) : Bool :=
  decide (2 ≤ a.nRows) && decide (a.nRows ≤ 65536) && a.nRows &&& (a.nRows - 1) == 0
    && decide (1 ≤ a.nCols) && decide (a.nCols ≤ 65536)
    && decide (a.nRows * a.nCols * 12 ≤ memWords.toNat)
    && decide (1 ≤ a.timeCost) && decide (a.timeCost < 2 ^ 64) && decide (a.outLen < 2 ^ 64)
    && decide (a.password.length < 2 ^ 64) && decide (a.salt.length < 2 ^ 64)

/-- R153: the basil, six words in a fixed order. -/
def basil (a : DeriveArgs) : List Word :=
  [a.outLen, a.password.length, a.salt.length, a.timeCost, a.nRows, a.nCols].map (BitVec.ofNat 64)

/-- R153: `password || salt || basil`, each basil word as 8 bytes, little-endian. -/
def inputBuffer (a : DeriveArgs) : List Byte :=
  a.password ++ a.salt ++ (basil a).flatMap fun w => (byteLanes w).toList

/-- R154: the number of 64-byte chunks of the padded buffer. -/
def chunkCount (len : Nat) : Nat := len / 64 + 1

/-- R154: 10*1 padding: 0x80, zeros up to the end of the last chunk, and the final byte XORed with 0x01. -/
def padded (buf : List Byte) : List Byte :=
  let n := 64 * chunkCount buf.length
  (buf ++ 0x80 :: List.replicate (n - buf.length - 1) 0).modify (n - 1) (fun b => b ^^^ 0x01)

/-- R155: word k of chunk i, little-endian. -/
def chunkWord (P : List Byte) (i k : Nat) : Word :=
  wordOfLanes (Vector.ofFn fun t : Fin 8 => P.getD (64 * i + 8 * k + t.val) 0)

/-- R155: chunk i of the padded buffer as eight words. -/
def chunkWords (P : List Byte) (i : Nat) : List Word := (List.range 8).map (chunkWord P i)

/-! ### Bootstrap and Setup (R156 to R159) -/

/-- R156: INIT, then one ABSORB_SAFE for each chunk. -/
def bootstrap (p : Params) (a : DeriveArgs) : List BusEvent :=
  let P := padded (inputBuffer a)
  command p .init ++ (List.range (chunkCount (inputBuffer a).length)).flatMap fun i =>
    loadFrom p 0x100 (chunkWords P i) ++ command p .absorbSafe

/-- R157: the configuration, NROWS and then NCOLS. When `derive` makes these writes is log 16. -/
def configure (p : Params) (a : DeriveArgs) : List BusEvent :=
  [wr p 0x018 (BitVec.ofNat 64 a.nRows), wr p 0x020 (BitVec.ofNat 64 a.nCols)]

/-- R159: the variables of the Setup schedule. -/
structure SetupVars where
  window : Word
  gap : Word
  step : Word
  rowStar : Word
  prev : Word
  deriving DecidableEq, Repr

/-- R159: the initial values. -/
def setupStart : SetupVars := { window := 2, step := 1, gap := 1, rowStar := 0, prev := 1 }

/-- R159: the update after `row` is filled; rowStar is masked with the window before the doubling. -/
def setupNext (row : Word) (v : SetupVars) : SetupVars :=
  let star := (v.rowStar + v.step) &&& (v.window - 1)
  if star = 0 then
    { window := v.window * 2, step := v.window + v.gap, gap := -v.gap, rowStar := star, prev := row }
  else { v with rowStar := star, prev := row }

/-- R63: a host's row number as an operand field. -/
def rowField (w : Word) : Index := w.setWidth 16

/-- R159: n DUPLEX_SETUP commands from `row` upwards. -/
def setupRows : Nat → Word → SetupVars → List Instr
  | 0, _, _ => []
  | n + 1, row, v =>
    .duplexSetup (rowField v.prev) (rowField v.rowStar) (rowField row) :: setupRows n (row + 1) (setupNext row v)

/-- R158, R159: the commands of the Setup phase. -/
def setupCommands (nRows : Nat) : List Instr :=
  .seedRow0 0 :: .duplexRow1 0 1 :: setupRows (nRows - 2) 2 setupStart

/-! ### Running a host sequence against the block -/

/-- n steps of the machine; `none` where one faults or is refused. -/
def runSteps : Nat → State → Option State
  | 0, s => some s
  | n + 1, s =>
    match step s with
    | .next t => runSteps n t
    | .fault _ => none
    | .refused _ => none

/-- The host makes these accesses, and nothing else happens at the bus meanwhile; R167: it abandons the derive when
an error is latched afterwards. When it looks at the latch is a DESIGN CHOICE (log 12). -/
def hostDoes (es : List BusEvent) (s : State) : Option State :=
  match runSteps es.length { s with bus := es } with
  | none => none
  | some t => if t.err then none else some t

/-- The value the host's last read returned. -/
def lastRead (s : State) : Word := s.reads.headD 0

/-! ### Wandering, Wrap-up and Squeeze (R160 to R162) -/

/-- R160: `step` of a Wandering pass. -/
def wanderStride (nRows tau : Nat) : Word :=
  if tau % 2 = 0 then -1 else BitVec.ofNat 64 (nRows / 2) - 1

/-- R160: n iterations of one pass: read S[0] while idle, take rowStar, issue DUPLEX_WANDER. -/
def wanderRows (nRows : Nat) (stride : Word) : Nat → (prev row star : Word) → State → Option (Word × Word × State)
  | 0, prev, _, star, s => some (prev, star, s)
  | n + 1, prev, row, _, s => do
    let s ← hostDoes [rd s.params 0x080] s
    let star := lastRead s &&& (BitVec.ofNat 64 nRows - 1)
    let s ← hostDoes (command s.params (.duplexWander (rowField prev) (rowField star) (rowField row))) s
    wanderRows nRows stride n row ((row + stride) &&& (BitVec.ofNat 64 nRows - 1)) star s

/-- R160: passes tau, tau+1, and so on; `prev` carries over from each to the next. -/
def wanderPasses (nRows : Nat) : Nat → Nat → (prev star : Word) → State → Option (Word × State)
  | 0, _, _, star, s => some (star, s)
  | n + 1, tau, prev, star, s => do
    let (prev, star, s) ← wanderRows nRows (wanderStride nRows tau) nRows prev 0 star s
    wanderPasses nRows n (tau + 1) prev star s

/-- R160: prev after Setup: nRows - 1, or 1 when nRows = 2. -/
def prevAfterSetup (nRows : Nat) : Word := BitVec.ofNat 64 (nRows - 1)

/-- R162: n SQUEEZE commands, each followed by the reads of D[0..11]; the bytes, little-endian. -/
def squeezeBlocks : Nat → State → Option (List Byte × State)
  | 0, s => some ([], s)
  | n + 1, s => do
    let p := s.params
    let s ← hostDoes (command p .squeeze ++ (List.range 12).map fun j => rd p (0x100 + 8 * j)) s
    let bytes := (s.reads.take 12).reverse.flatMap fun w => (byteLanes w).toList
    let (more, s) ← squeezeBlocks n s
    some (bytes ++ more, s)

/-- R150: the bytes that `derive` returns and the block's state at its end; `none` where the host refuses the call
(R151) or abandons it (R167). R163: with outLen = 0 every phase runs and no SQUEEZE is issued. The call begins with
`RD MEMWORDS` (log 15). DESIGN CHOICE (log 16): R157 puts the writes of NROWS and NCOLS anywhere before the first matrix
command, and R214 orders them neither before nor after INIT. Here they come after the whole Bootstrap, just before
`SEED_ROW0 0`. -/
def derive (a : DeriveArgs) (s : State) : Option (List Byte × State) := do
  let p := s.params
  let s ← hostDoes [rd p 0x028] s
  if deriveValid (lastRead s) a then
    let s ← hostDoes (bootstrap p a ++ configure p a ++ (setupCommands a.nRows).flatMap (command p)) s
    let (star, s) ← wanderPasses a.nRows a.timeCost 1 (prevAfterSetup a.nRows) 0 s
    let s ← hostDoes (absorbRow p (rowField star)) s
    let (bytes, s) ← squeezeBlocks ((a.outLen + 95) / 96) s
    some (bytes.take a.outLen, s)
  else none

end Sys2Proof.Machine
end

