-- ==== Sys2Proof/Tests/Slice0.lean ====
section
/-! SUPPORT. Tests of single steps against the vectors of 95_test_vectors.md (named V1 to V27 there) and the worked
encodings of R72, and for each obligation with hypotheses a theorem that shows values meeting them together. -/

namespace Sys2Proof.Tests

open Sys2Proof.Machine

-- One theorem after another: their kernel evaluations at the same time would take a thread, and its stack, each.
set_option Elab.async false

/-! ### Small states -/

/-- Room for exactly 4 rows of 2 columns (V25), at a base that is not 0. -/
def small : Params := { memWords := 96, blockBase := 0x1000 }

/-- A configured block with the INIT state and D = (1, ..., 12). -/
def ready : State :=
  { State.resetWith small with
    S := initSponge, D := #v[1, 2, 3, 4, 5, 6, 7, 8, 9, 10, 11, 12], nrows := 4, ncols := 2 }

/-- A block whose word 0 is `x` and the rest 0. -/
def first (x : Word) : Block := Vector.ofFn fun j => if j.val = 0 then x else 0

/-- `ready` with every cell written: cell (r, c) begins with 2 * r + c. -/
def filled : State :=
  [(0, 0), (0, 1), (1, 0), (1, 1), (2, 0), (2, 1), (3, 0), (3, 1)].foldl
    (fun s rc => writeCell s rc.1 rc.2 (first (BitVec.ofNat 64 (2 * rc.1 + rc.2)))) ready

/-- One column, S = 0, and four cells that begin with the given words. -/
def column (w : Fin 4 → Word) : State :=
  [0, 1, 2, 3].foldl (fun s (r : Fin 4) => writeCell s r.val 0 (first (w r)))
    { ready with S := Vector.replicate 16 0, ncols := 1 }

/-- A block with a command word in the slot and the sequencer next. -/
def busyWith (v : Nat) : State := ready.withFetchWord 64 v

/-- The host makes one access next. -/
def onBus (e : BusEvent) (s : State) : State := { s with bus := [e] }

/-- A host write and a host read at an offset of `small`. -/
def writeAt (off : Nat) (v : Word) : BusEvent := wr small off v
def readAt (off : Nat) : BusEvent := rd small off

/-- What `f` shows of the next state, `none` for a fault or a refusal. -/
def shows {α : Type} (o : Host.Outcome State Fault Refusal) (f : State → α) : Option α :=
  match o with
  | .next t => some (f t)
  | .fault _ => none
  | .refused _ => none

/-- The fault, if there is one. -/
def faultOf (o : Host.Outcome State Fault Refusal) : Option Fault :=
  match o with
  | .next _ => none
  | .fault f => some f
  | .refused _ => none

/-- A cell's first word, `none` where the cell cannot be read. -/
def head (s : State) (r c : Nat) : Option Word :=
  match readCell s r c with
  | .ok X => some X[0]
  | .error _ => none

/-! ### WellFormed: an ill-formed term for each check -/

theorem test_wf_refuses_reserved_op : RawCommand.wellFormed ⟨0x07, 0, 0, 0, 0⟩ = false := by decide
theorem test_wf_refuses_rsv : RawCommand.wellFormed ⟨0x01, 0, 0, 0, 1⟩ = false := by decide
theorem test_wf_refuses_unused_a : RawCommand.wellFormed ⟨0x01, 1, 0, 0, 0⟩ = false := by decide
theorem test_wf_refuses_unused_b : RawCommand.wellFormed ⟨0x11, 0, 1, 1, 0⟩ = false := by decide
theorem test_wf_refuses_unused_c : RawCommand.wellFormed ⟨0x08, 1, 0, 1, 0⟩ = false := by decide
theorem test_wf_accepts_setup : RawCommand.wellFormed ⟨0x12, 1, 0, 2, 0⟩ = true := by decide
theorem test_params_legal : Config.params.legal = true ∧ small.legal = true := by decide

/-! ### Decoding: each row of R66, its word written out by fields (R60) -/

theorem test_decode_nop : decode 0b00000000_0000000000000000_0000000000000000_0000000000000000_00000000 = .ok .nop := by
  decide
theorem test_decode_init :
    decode 0b00000000_0000000000000000_0000000000000000_0000000000000000_00000001 = .ok .init := by decide
theorem test_decode_permFull :
    decode 0b00000000_0000000000000000_0000000000000000_0000000000000000_00000010 = .ok .permFull := by decide
theorem test_decode_permRed :
    decode 0b00000000_0000000000000000_0000000000000000_0000000000000000_00000011 = .ok .permRed := by decide
theorem test_decode_absorb :
    decode 0b00000000_0000000000000000_0000000000000000_0000000000000000_00000100 = .ok .absorb := by decide
theorem test_decode_absorbSafe :
    decode 0b00000000_0000000000000000_0000000000000000_0000000000000000_00000101 = .ok .absorbSafe := by decide
theorem test_decode_squeeze :
    decode 0b00000000_0000000000000000_0000000000000000_0000000000000000_00000110 = .ok .squeeze := by decide
theorem test_decode_blkRead :
    decode 0b00000000_0000000000000000_0000000000000010_0000000000000011_00001000 = .ok (.blkRead 3 2) := by decide
theorem test_decode_blkWrite :
    decode 0b00000000_0000000000000000_0000000000000010_0000000000000011_00001001 = .ok (.blkWrite 3 2) := by decide
theorem test_decode_seedRow0 :
    decode 0b00000000_0000000000000101_0000000000000000_0000000000000000_00010000 = .ok (.seedRow0 5) := by decide
theorem test_decode_duplexRow1 :
    decode 0b00000000_0000000000000001_0000000000000000_0000000000000010_00010001 = .ok (.duplexRow1 2 1) := by decide
theorem test_decode_duplexSetup :
    decode 0b00000000_0000000000000011_0000000000000001_0000000000000010_00010010 = .ok (.duplexSetup 2 1 3) := by decide
theorem test_decode_duplexWander :
    decode 0b00000000_0000000000000000_0000000000000010_0000000000000011_00010011 = .ok (.duplexWander 3 2 0) := by decide

/-- V24: the illegal rows. -/
theorem test_decode_illegal :
    [0x07, 0x0A, 0x0F, 0x14, 0xFF, 0x101, 0x0100000000000001, 0x8000000000000000, 0x0000010000000008, 0x110,
     0x0000000001000010, 0x0000000001000011, 0x01FFFFFFFFFFFF13].all
      (fun v => (decodeTableWord 64 v).isNone) = true := by decide
/-- V24: an operand out of range decodes. -/
theorem test_decode_ranges_later : decodeTableWord 64 0x000000FFFFFFFF08 = some (.blkRead 65535 65535) := by decide
/-- R72: a worked encoding, the other way. -/
theorem test_encode_setup : encode (.duplexSetup 2 1 3) = 0x0000030001000212 := by decide

/-! ### Functions -/

/-- V19, the all-ones row. -/
theorem test_mix_carries :
    mix 0xFFFFFFFFFFFFFFFF 0xFFFFFFFFFFFFFFFF 0xFFFFFFFFFFFFFFFF 0xFFFFFFFFFFFFFFFF
      = (0x000000FFFFFFFEFE, 0xFDFC01FDFE0201FD, 0xFEFE000100FEFFFE, 0xFEFE000000FEFFFF) := by decide +kernel
/-- V1, the source's fixture. -/
theorem test_mix_fixture :
    mix 0x665B812845B63236 0x665B812845B63236 0x6A09E667F3BCC908 0x510E527FADE682D1
      = (0x8CE204475AB87240, 0xE65EECF17679DBD8, 0xB304778E7470E038, 0x226FAA68E2FAC701) := by decide +kernel
/-- V23: word 0 takes word 11. -/
theorem test_rotW : rotW (first 1) = Vector.ofFn fun j => if j.val = 1 then 1 else 0 := by decide +kernel
/-- V20 (d): one round of (1, 0, ..., 0), words 0, 4 and 15. -/
theorem test_round :
    let S := spongeRound (Vector.ofFn fun i => if i.val = 0 then 1 else 0)
    S[0] = 0x0000000000010201 ∧ S[4] = 0x08000C0804080014 ∧ S[15] = 0x0201000001010001 := by decide +kernel
/-- R43: cellAddr (3, 2) of a 4 x 4 matrix is 168 (V10). -/
theorem test_cellAddr : cellAddr { ready with ncols := 4 } 3 2 = 168 := by decide +kernel

/-! ### Commands -/

/-- R140: NOP changes nothing. -/
theorem test_nop : shows (exec .nop ready) (fun t => decide (t = ready)) = some true := by decide +kernel
/-- V22. -/
theorem test_init :
    shows (exec .init { ready with S := Vector.replicate 16 7 }) (fun t => (t.S[0], t.S[7], t.S[8], t.S[15]))
      = some (0, 0, 0x6A09E667F3BCC908, 0x5BE0CD19137E2179) := by decide +kernel
/-- V20 (c). -/
theorem test_permFull :
    shows (exec .permFull ready) (fun t => (t.S[0], t.S[15])) = some (0xE69F10665547562D, 0xE71689C7EBA1C037) := by
  decide +kernel
/-- V20 (b). -/
theorem test_permRed :
    shows (exec .permRed ready) (fun t => (t.S[0], t.S[15])) = some (0xD11C2568289A5CE3, 0x9AE136CCBDA8C5BE) := by
  decide +kernel
/-- V8. -/
theorem test_absorb :
    shows (exec .absorb ready) (fun t => (t.S[0], t.S[15], t.D[0]))
      = some (0xB7CA30B4235E1C91, 0xF645EBCBC5FD4314, 1) := by decide +kernel
/-- V21: D[8..11] are not read. -/
theorem test_absorbSafe :
    shows (exec .absorbSafe ready) (fun t => (t.S[0], t.S[15])) = some (0x32F50C0C643741C0, 0x66BAA3DE13AEC7CC) := by
  decide +kernel
/-- V9: D is the rate before the permutation. -/
theorem test_squeeze :
    shows (exec .squeeze ready) (fun t => (t.D[0], t.D[8], t.D[11], t.S[0]))
      = some (0, 0x6A09E667F3BCC908, 0xA54FF53A5F1D36F1, 0xE69F10665547562D) := by decide +kernel
/-- V10: BLK_WRITE 3, 1 of a 4 x 2 matrix fills words 84 to 95, the last of MEM_WORDS. -/
theorem test_blkWrite :
    shows (exec (.blkWrite 3 1) ready) (fun t => (t.matrix.map (fun e => e.1), head t 3 1))
      = some ([84, 85, 86, 87, 88, 89, 90, 91, 92, 93, 94, 95], some 1) := by decide +kernel
/-- R111: BLK_READ 2, 1 takes the cell that begins with 5. -/
theorem test_blkRead : shows (exec (.blkRead 2 1) filled) (fun t => (t.D[0], t.D[1])) = some (5, 0) := by
  decide +kernel
/-- R36: reading a cell that no command has written faults at its first word. -/
theorem test_blkRead_unwritten : faultOf (exec (.blkRead 1 0) ready) = some (.unwrittenMatrixWord 24) := by
  decide +kernel
/-- R217: a cell written under NROWS = 4 is unwritten for reading under NROWS = 2. -/
theorem test_blkRead_stale :
    faultOf (exec (.blkRead 0 0) { filled with nrows := 2 }) = some (.staleMatrixWord 0) := by decide +kernel
/-- V11. -/
theorem test_seedRow0 :
    shows (exec (.seedRow0 0) ready) (fun t => (t.S[0], t.S[15], head t 0 0, head t 0 1, head t 1 0))
      = some (0x2411EEC9B5FEDD11, 0xC4B1DA7D7C5413E8, some 0xD11C2568289A5CE3, some 0, none) := by decide +kernel
/-- R122 with V20 (d): S = 0 and X = (1, 0, ..., 0); rowIn is only read and rowOut is overwritten. -/
theorem test_duplexRow1 :
    shows (exec (.duplexRow1 0 3) (column ![1, 7, 7, 7])) (fun t => (t.S[0], head t 0 0, head t 3 0))
      = some (0x0000000000010201, some 1, some 0x0000000000010200) := by decide +kernel
/-- R122: column 0's result, here 0 XOR 0, goes to column N-1 = 1, which held 3. -/
theorem test_duplexRow1_reversed :
    shows (exec (.duplexRow1 0 1) { filled with S := Vector.replicate 16 0 }) (fun t => head t 1 1) = some (some 0) := by
  decide +kernel
/-- R123 with V20 (d): X + Y = (1, 0, ..., 0) by a carry out of bit 63; rowOut takes X ^ S and rowInOut takes
Y ^ rotW(S), whose word 0 is Y[0] ^ S[11]. -/
theorem test_duplexSetup :
    shows (exec (.duplexSetup 0 1 2) (column ![0xFFFFFFFFFFFFFFFF, 2, 7, 7]))
      (fun t => (t.S[0], head t 2 0, head t 1 0, head t 0 0))
      = some (0x0000000000010201, some 0xFFFFFFFFFFFEFDFE, some 0x0002010101010003, some 0xFFFFFFFFFFFFFFFF) := by
  decide +kernel
/-- R125: with rowInOut = rowOut and N = 1 the cell ends as (X ^ s) ^ rotW(s). -/
theorem test_duplexSetup_coinciding :
    shows (exec (.duplexSetup 0 1 1) (column ![0xFFFFFFFFFFFFFFFF, 2, 7, 7])) (fun t => head t 1 0)
      = some (some 0xFFFDFEFEFEFFFDFF) := by decide +kernel
/-- R124: rowOut takes W ^ S, not X ^ S. -/
theorem test_duplexWander :
    shows (exec (.duplexWander 0 1 2) (column ![0xFFFFFFFFFFFFFFFF, 2, 7, 7]))
      (fun t => (t.S[0], head t 2 0, head t 1 0)) = some (0x0000000000010201, some 0x10206, some 0x0002010101010003) := by
  decide +kernel
/-- R125: with rowInOut = rowOut the cell ends as W ^ s ^ rotW(s). -/
theorem test_duplexWander_coinciding :
    shows (exec (.duplexWander 0 1 1) (column ![0xFFFFFFFFFFFFFFFF, 2, 7, 7])) (fun t => head t 1 0)
      = some (some 0x0002010101000202) := by decide +kernel

/-! ### Errors, the host's accesses and reset -/

/-- V25: after reset every matrix command is CFG_INVALID. -/
theorem test_cfg_invalid :
    shows (step (State.reset.withFetchWord 64 0x08)) (fun t => (statusWord t, t.errInfo)) = some (0x0202, 0x08) := by
  decide +kernel
/-- V25: SEED_ROW0 with A = 4 is ILLEGAL_OP. -/
theorem test_illegal_op :
    shows (step (busyWith 0x410)) (fun t => (statusWord t, t.errInfo)) = some (0x0102, 0x410) := by decide +kernel
/-- V25: BLK_READ 4, 9 shows ROW_RANGE before COL_RANGE. -/
theorem test_row_range :
    shows (step (busyWith 0x9000408)) (fun t => (statusWord t, t.errInfo)) = some (0x0302, 0x9000408) := by decide +kernel
/-- V25: BLK_READ 3, 4. -/
theorem test_col_range :
    shows (step (busyWith 0x4000308)) (fun t => (statusWord t, t.errInfo)) = some (0x0402, 0x4000308) := by decide +kernel
/-- V25: NROWS = 4, NCOLS = 4 does not fit in 96 words; NROWS = 3 is no power of two; NROWS = 2^17 is too large. -/
theorem test_cfgValid :
    cfgValid ready = true ∧ cfgValid { ready with ncols := 4 } = false ∧ cfgValid { ready with nrows := 3 } = false ∧
      cfgValid { ready with nrows := 0x20000, ncols := 1, params := ⟨0xFFFFFFFFFFFFFFFF, 0⟩ } = false ∧
      cfgValid { ready with ncols := 65537, params := ⟨0xFFFFFFFFFFFFFFFF, 0⟩ } = false ∧
      cfgValid { ready with nrows := 1, ncols := 1 } = true := by decide +kernel
/-- V27: a write of D[0] while busy latches BUSY_WRITE with offset 0x100 and is ignored. -/
theorem test_busy_write :
    shows (step (onBus (writeAt 0x100 7) (busyWith 2))) (fun t => (statusWord t, t.errInfo, t.D[0], t.pending))
      = some (0x0503, 0x100, 1, some 2) := by decide +kernel
/-- V26, step 6: bit 1 clears the latch. -/
theorem test_status_clear :
    shows (step (onBus (writeAt 0x008 2) (raise .rowRange 0x508 ready))) (fun t => (statusWord t, t.errInfo))
      = some (0, 0) := by decide +kernel
/-- V26, step 5: bit 1 is 0. -/
theorem test_status_keeps :
    shows (step (onBus (writeAt 0x008 0xFFFFFFFFFFFFFFFD) (raise .rowRange 0x508 ready)))
      (fun t => (statusWord t, t.errInfo)) = some (0x0302, 0x508) := by decide +kernel
/-- V26, step 2: a command while an error is latched is discarded. -/
theorem test_discard :
    shows (step (onBus (writeAt 0 1) (raise .rowRange 0x508 ready))) (fun t => (t.busy, t.pending)) = some (false, none) := by
  decide +kernel
/-- R22, R81: a CMD write fills the slot. -/
theorem test_issue :
    shows (step (onBus (writeAt 0 1) ready)) (fun t => (t.busy, t.pending)) = some (true, some 1) := by decide +kernel
/-- R20: MEMWORDS, S[15] and D[11] at their offsets. -/
theorem test_read_offsets :
    shows (step (onBus (readAt 0x028) ready)) (fun t => lastRead t) = some 96 ∧
    shows (step (onBus (readAt 0x0F8) ready)) (fun t => lastRead t) = some 0x5BE0CD19137E2179 ∧
    shows (step (onBus (readAt 0x158) ready)) (fun t => lastRead t) = some 12 ∧
    shows (step (onBus (readAt 0x160) ready)) (fun t => lastRead t) = some 0 := by decide +kernel
/-- R211, R212: reset while a command is pending. -/
theorem test_reset :
    shows (step (onBus .reset (busyWith 2))) (fun t => (t.S[8], t.nrows, t.busy, t.pending)) = some (0, 0, false, none) := by
  decide +kernel

/-! ### The host's sequences (49_host_lyra2.md) -/

/-- V6 (b): L = 63, so the 0x80 byte is the last one and becomes 0x81. -/
theorem test_padding :
    let a : DeriveArgs := { password := [0, 1, 2, 3, 4, 5, 6, 7, 8, 9, 10, 11, 12, 13, 14], salt := [], outLen := 32
                            timeCost := 1, nRows := 4, nCols := 4 }
    chunkCount (inputBuffer a).length = 1 ∧
    chunkWords (padded (inputBuffer a)) 0 =
      [0x0706050403020100, 0x200E0D0C0B0A0908, 0x0F00000000000000, 0x0000000000000000,
       0x0100000000000000, 0x0400000000000000, 0x0400000000000000, 0x8100000000000000] := by decide +kernel
/-- R169, item 3 and 4: the Setup commands for nRows = 4. -/
theorem test_setup_schedule :
    setupCommands 4 = [.seedRow0 0, .duplexRow1 0 1, .duplexSetup 1 0 2, .duplexSetup 2 1 3] := by decide +kernel

/-! ### Witnesses: values that meet the hypotheses of each obligation together -/

theorem witness_DecodedWordIsItsEncoding : decode 0x00FFFFFFFFFFFF13 = .ok (.duplexWander 65535 65535 65535) := by decide

/-- Both forms of the sequencer's turn, a command that answers a next state and one that faults. No command is
refused. -/
theorem witness_StepRunsDecodedCommand :
    (SequencersTurn (busyWith 0) ∧ (busyWith 0).pending = some 0 ∧ decode 0 = .ok .nop ∧
      exec .nop { busyWith 0 with bus := [] } = .next { busyWith 0 with bus := [] }) ∧
    (SequencersTurn { busyWith 0 with bus := [] } ∧ { busyWith 0 with bus := [] }.pending = some 0) ∧
    (SequencersTurn (busyWith 0x108) ∧ (busyWith 0x108).pending = some 0x108 ∧ decode 0x108 = .ok (.blkRead 1 0) ∧
      exec (.blkRead 1 0) { busyWith 0x108 with bus := [] } = .fault (.unwrittenMatrixWord 24)) :=
  ⟨⟨.inr rfl, rfl, by decide, rfl⟩, ⟨.inl rfl, rfl⟩, .inr rfl, rfl, by decide, by rfl⟩

/-- With no error latched, with one latched before, and every ground at its boundary. -/
theorem witness_IllegalWordLatchesIllegalOp :
    (SequencersTurn (busyWith 7) ∧ (busyWith 7).pending = some 7 ∧ (busyWith 7).err = false) ∧
    (SequencersTurn (raise .busyWrite 0 (busyWith 7)) ∧ (raise .busyWrite 0 (busyWith 7)).pending = some 7 ∧
      (raise .busyWrite 0 (busyWith 7)).err = true) ∧ IllegalWord 7 ∧ IllegalWord 0x0A ∧ IllegalWord 0x0F ∧
    IllegalWord 0x14 ∧ IllegalWord 0xFF ∧ IllegalWord 0x0100000000000001 ∧ IllegalWord 0x101 ∧
    IllegalWord 0x0000000001000010 ∧ IllegalWord 0x0000010000000008 :=
  ⟨⟨.inr rfl, rfl, rfl⟩, ⟨.inr rfl, rfl, rfl⟩, by unfold IllegalWord; decide, by unfold IllegalWord; decide, by unfold IllegalWord; decide,
    by unfold IllegalWord; decide, by unfold IllegalWord; decide, by unfold IllegalWord; decide,
    by unfold IllegalWord; decide, by unfold IllegalWord; decide, by unfold IllegalWord; decide⟩

theorem witness_IdleBlockHoldsItsState : ready.bus = [] ∧ ready.pending = none := ⟨rfl, rfl⟩

theorem good_busy : GoodState (busyWith 0) :=
  ⟨by decide, by decide, rfl, fun _ => ⟨rfl, rfl⟩, fun h => by cases h⟩

theorem step_busy_nop : step (busyWith 0) = .next { busyWith 0 with bus := [], pending := none, busy := false } := by rfl

theorem witness_StepKeepsInvariant :
    GoodState (busyWith 0) ∧ step (busyWith 0) = .next { busyWith 0 with bus := [], pending := none, busy := false } :=
  ⟨good_busy, step_busy_nop⟩

theorem witness_StepKeepsParameters :
    step (busyWith 0) = .next { busyWith 0 with bus := [], pending := none, busy := false } := step_busy_nop

theorem witness_RunIsOverWhenEventsAreUsedUp :
    GoodState (busyWith 0) ∧ (busyWith 0).busy = true ∧
    SafeRun ((busyWith 0).bus.length + 1) (busyWith 0) { busyWith 0 with bus := [], pending := none, busy := false } :=
  ⟨good_busy, rfl, .step step_busy_nop (.step rfl (.done _))⟩

/-- R24: BUSY goes up at a CMD write, and down at the command's end and at a reset. -/
theorem witness_BusyChangesOnlyByCommandOrReset :
    (ready.busy = false ∧ shows (step (onBus (writeAt 0 1) ready)) (fun t => t.busy) = some true) ∧
    ((busyWith 2).busy = true ∧ shows (step (busyWith 2)) (fun t => t.busy) = some false) ∧
    shows (step (onBus .reset (busyWith 2))) (fun t => t.busy) = some false := by decide +kernel

/-- Two states that agree on what the statement names: the second differs in everything else that it may. The
premises of the clauses: a latched error, a pending command with another BUSY, the latch's fields agreeing, and the
invariant in both states (a third, `s''`, differs on the host's side alone). -/
theorem witness_SequencerDependsOnlyOnBlockState :
    let s := busyWith 0
    let s' : State := { s with busy := false, errCode := .colRange, errInfo := 9, reads := [1], draws := 3, bus := [] }
    let s'' : State := { s with reads := [1], draws := 3, bus := [] }
    (s'.pending = s.pending ∧ s'.S = s.S ∧ s'.D = s.D ∧ s'.nrows = s.nrows ∧ s'.ncols = s.ncols ∧ s'.err = s.err ∧
      s'.matrix = s.matrix ∧ s'.params = s.params ∧ sequencerStep s = .next { s with pending := none, busy := false }) ∧
    (let e := raise .busyWrite 0 s;
      e.err = true ∧ sequencerStep e = .next { e with pending := none, busy := false }) ∧
    (s.pending ≠ none ∧ s'.busy ≠ s.busy) ∧ (s''.errCode = s.errCode ∧ s''.errInfo = s.errInfo) ∧
    (GoodState s ∧ GoodState s'' ∧ s.err = false) :=
  ⟨⟨rfl, rfl, rfl, rfl, rfl, rfl, rfl, rfl, rfl⟩, ⟨rfl, rfl⟩, ⟨by decide, by decide⟩, ⟨rfl, rfl⟩, good_busy,
    ⟨good_busy.1, good_busy.2, good_busy.3, good_busy.4, good_busy.5⟩, rfl⟩

theorem at_offset (e : BusEvent) (s : State) (off : Nat) (h : (0x1000 + BitVec.ofNat 64 off - s.params.blockBase).toNat = off)
    (h1 : off < 0x200) (h2 : off % 8 = 0) : AccessAt (onBus e s) (0x1000 + BitVec.ofNat 64 off) off := ⟨h, h1, h2⟩

theorem witness_CmdWriteIssuesOrIsDiscarded :
    (onBus (writeAt 0 1) ready).bus = .write (0x1000 + BitVec.ofNat 64 0) 8 1 :: [] ∧
    AccessAt (onBus (writeAt 0 1) ready) (0x1000 + BitVec.ofNat 64 0) 0x000 ∧
    (ready.busy = false ∧ ready.err = false) ∧ (raise .rowRange 0 ready).err = true ∧ (busyWith 2).busy = true :=
  ⟨rfl, ⟨by decide, by decide, by decide⟩, ⟨rfl, rfl⟩, rfl, rfl⟩

/-- The lowest and the highest offset, with no error latched and with one. -/
theorem witness_WriteWhileBusyOnlyLatches :
    ((onBus (writeAt 0x1F8 7) (busyWith 2)).bus = .write (0x1000 + BitVec.ofNat 64 0x1F8) 8 7 :: [] ∧
      AccessAt (onBus (writeAt 0x1F8 7) (busyWith 2)) (0x1000 + BitVec.ofNat 64 0x1F8) 0x1F8 ∧
      (onBus (writeAt 0x1F8 7) (busyWith 2)).busy = true) ∧
    AccessAt (onBus (writeAt 0 7) (busyWith 2)) (0x1000 + BitVec.ofNat 64 0) 0 ∧ (busyWith 2).err = false ∧
    (raise .busyWrite 0 (busyWith 2)).err = true ∧ (raise .busyWrite 0 (busyWith 2)).busy = true :=
  ⟨⟨rfl, ⟨by decide, by decide, by decide⟩, rfl⟩, ⟨by decide, by decide, by decide⟩, rfl, rfl, rfl⟩

/-- Every clause's boundary offsets are offsets of the space. -/
theorem witness_offsets :
    ∀ off ∈ [0x000, 0x008, 0x010, 0x018, 0x020, 0x028, 0x030, 0x078, 0x080, 0x0F8, 0x100, 0x158, 0x160, 0x1F8],
      AccessAt ready (0x1000 + BitVec.ofNat 64 off) off ∧ AccessAt (busyWith 2) (0x1000 + BitVec.ofNat 64 off) off := by
  unfold AccessAt; decide

theorem witness_ReadWhileBusy :
    (onBus (readAt 0x158) (busyWith 2)).bus = .read (0x1000 + BitVec.ofNat 64 0x158) 8 :: [] ∧
    AccessAt (onBus (readAt 0x158) (busyWith 2)) (0x1000 + BitVec.ofNat 64 0x158) 0x158 ∧
    (onBus (readAt 0x158) (busyWith 2)).busy = true := ⟨rfl, ⟨by decide, by decide, by decide⟩, rfl⟩

theorem witness_ReadWhileIdle :
    (onBus (readAt 0x0F8) ready).bus = .read (0x1000 + BitVec.ofNat 64 0x0F8) 8 :: [] ∧
    AccessAt (onBus (readAt 0x0F8) ready) (0x1000 + BitVec.ofNat 64 0x0F8) 0x0F8 ∧
    (onBus (readAt 0x0F8) ready).busy = false ∧ 0x0F8 = 0x080 + 8 * (15 : Fin 16).val ∧
    0x158 = 0x100 + 8 * (11 : Fin 12).val := ⟨rfl, ⟨by decide, by decide, by decide⟩, rfl, rfl, rfl⟩

theorem witness_WriteWhileIdleStores :
    (onBus (writeAt 0x018 8) ready).bus = .write (0x1000 + BitVec.ofNat 64 0x018) 8 8 :: [] ∧
    AccessAt (onBus (writeAt 0x018 8) ready) (0x1000 + BitVec.ofNat 64 0x018) 0x018 ∧
    (onBus (writeAt 0x018 8) ready).busy = false := ⟨rfl, ⟨by decide, by decide, by decide⟩, rfl⟩

theorem witness_StatusWriteClearsLatch :
    (onBus (writeAt 0x008 2) ready).bus = .write (0x1000 + BitVec.ofNat 64 0x008) 8 2 :: [] ∧
    AccessAt (onBus (writeAt 0x008 2) ready) (0x1000 + BitVec.ofNat 64 0x008) 0x008 ∧
    (onBus (writeAt 0x008 2) ready).busy = false ∧ (2 : Word).getLsbD 1 = true ∧
    (0xFFFFFFFFFFFFFFFD : Word).getLsbD 1 = false := ⟨rfl, ⟨by decide, by decide, by decide⟩, rfl, by decide, by decide⟩

theorem witness_ReadsHaveNoSideEffect :
    (onBus (readAt 0) ready).bus = .read (0x1000 + BitVec.ofNat 64 0) 8 :: [] ∧
    (shows (step (onBus (readAt 0) ready)) (fun _ => ())).isSome = true := ⟨rfl, by decide +kernel⟩

theorem witness_MisformedAccessIsRefused :
    ((0x11FF : Word) - small.blockBase).toNat < 0x200 ∧ ((0x11FF : Word) - small.blockBase).toNat % 8 ≠ 0 ∧
    ((0x1000 : Word) - small.blockBase).toNat < 0x200 ∧ (4 : Nat) ≠ 8 ∧
    (onBus (.write 0x1000 4 0) ready).bus = .write 0x1000 4 0 :: [] ∧
    (onBus (.read 0x11FF 8) ready).bus = .read 0x11FF 8 :: [] :=
  ⟨by decide, by decide, by decide, by decide, rfl, rfl⟩

theorem witness_ResetLeavesResetValues : (onBus .reset (busyWith 2)).bus = .reset :: [] := rfl

/-- One operand at its first value out of range, for each of the three errors. -/
theorem witness_MatrixCommandErrorsInOrder :
    rowOperands (.blkRead 4 2) ≠ [] ∧ cfgValid State.reset = false ∧ cfgValid ready = true ∧
    (∃ r ∈ rowOperands (.blkRead 4 2), ready.nrows.toNat ≤ r.toNat) ∧
    (∀ r ∈ rowOperands (.blkRead 3 2), r.toNat < ready.nrows.toNat) ∧
    (∃ c ∈ colOperands (.blkRead 3 2), ready.ncols.toNat ≤ c.toNat) :=
  ⟨by simp [rowOperands], by decide, by decide,
    ⟨4, by simp [rowOperands], by decide⟩, fun r hr => by rw [List.mem_singleton.mp hr]; decide,
    ⟨2, by simp [colOperands], by decide⟩⟩

theorem exec_nop (s : State) : exec .nop s = .next s := rfl

/-- A command that answers a next state, and one that fails a check and answers one. -/
theorem witness_FailingCommandChangesOnlyTheLatch :
    exec .nop ready = .next ready ∧
    exec (.seedRow0 0) State.reset = .next (raise .cfgInvalid (encode (.seedRow0 0)) State.reset) ∧
    State.reset.err = false := ⟨rfl, rfl, rfl⟩

theorem witness_LatchedErrorSurvivesCommands :
    (raise .busyWrite 0 (busyWith 0)).err = true ∧ SequencersTurn (raise .busyWrite 0 (busyWith 0)) ∧
    (shows (step (raise .busyWrite 0 (busyWith 0))) (fun _ => ())).isSome = true :=
  ⟨rfl, .inr rfl, by decide⟩

theorem witness_OnlyUnwrittenReadsStopACommand :
    exec (.blkRead 1 0) ready = .fault (.unwrittenMatrixWord 24) := by rfl

theorem witness_CommandsKeepConfiguration : exec .nop ready = .next ready := rfl
theorem witness_CommandsChangeOnlyWhatTheyWrite :
    (shows (exec (.blkWrite 3 1) ready) (fun _ => ())).isSome = true ∧ changesD (.blkWrite 3 1) = false ∧
    changesS (.blkWrite 3 1) = false := by decide

theorem witness_RotrMovesBitsCyclically : (1 ≤ 1 ∧ 1 ≤ 63) ∧ (1 ≤ 63 ∧ 63 ≤ 63) ∧ 63 < 64 := by decide

/-- The hypotheses of the round's statement name the results of the calls, so any state meets them. -/
theorem witness_RoundIsColumnThenDiagonalStep : ∃ a, mix initSponge[0] initSponge[4] initSponge[8] initSponge[12] = a :=
  ⟨_, rfl⟩

theorem witness_StepCallsCommute :
    ([(3, 7, 11, 15), (2, 6, 10, 14), (1, 5, 9, 13), (0, 4, 8, 12)] : List MixGroup).Perm columnGroups ∧
    ([(3, 4, 9, 14), (0, 5, 10, 15), (1, 6, 11, 12), (2, 7, 8, 13)] : List MixGroup).Perm diagonalGroups := by decide

theorem witness_IvIsBlake2bIv : exec .init ready = .next (ready.withS initSponge) := rfl

theorem witness_zero_state : (∀ i : Fin 16, State.reset.S[i] = 0) ∧ ∀ j : Fin 12, State.reset.D[j] = 0 := by decide
theorem witness_zero_safe_rate : ∀ j, (h : j < 8) → State.reset.D[j] = 0 := by
  intro j h; simp [State.reset, State.resetWith]

theorem cfg_ready : cfgValid ready = true := by decide
theorem cfg_filled : cfgValid filled = true := by decide
theorem filled_dims : filled.nrows = 4 ∧ filled.ncols = 2 := ⟨rfl, rfl⟩

/-- The last word of the last cell. -/
theorem witness_CellsLieInsideAndApart :
    cfgValid ready = true ∧ 3 < ready.nrows.toNat ∧ 1 < ready.ncols.toNat ∧ 11 < 12 := by decide

theorem isOk_cellWritten {s : State} {r c : Nat} (h : (readCell s r c).toOption.isSome = true) : CellWritten s r c := by
  refine cellWritten_iff.mpr ?_
  cases hc : readCell s r c with
  | error f => rw [hc] at h; cases h
  | ok X => exact ⟨X, rfl⟩

theorem filled_cells : ∀ r : Fin 4, ∀ c : Fin 2, (readCell filled r.val c.val).toOption.isSome = true := by decide

theorem filled_row (r : Fin 4) : RowWritten filled r.val := by
  intro c hc
  have hc : c < 2 := hc
  exact isOk_cellWritten (filled_cells r ⟨c, hc⟩)

theorem witness_BlkReadCopiesCellToD :
    cfgValid filled = true ∧ (3 : Index).toNat < filled.nrows.toNat ∧ (1 : Index).toNat < filled.ncols.toNat ∧
    CellWritten filled (3 : Index).toNat (1 : Index).toNat :=
  ⟨cfg_filled, by decide, by decide, isOk_cellWritten (filled_cells 3 1)⟩

theorem witness_BlkWriteCopiesDToCell :
    cfgValid ready = true ∧ (3 : Index).toNat < ready.nrows.toNat ∧ (1 : Index).toNat < ready.ncols.toNat := by decide

theorem witness_BlkWriteThenReadGivesBack :
    cfgValid ready = true ∧ (3 : Index).toNat < ready.nrows.toNat ∧ (1 : Index).toNat < ready.ncols.toNat ∧
    (shows (exec (.blkWrite 3 1) ready) (fun _ => ())).isSome = true := by decide +kernel

/-- Both sides of the equivalence occur: `filled` has its cells written, `ready` has none. -/
theorem witness_BlkReadFaultsExactlyOnUnwrittenCell :
    cfgValid ready = true ∧ (1 : Index).toNat < ready.nrows.toNat ∧ (0 : Index).toNat < ready.ncols.toNat ∧
    ∃ f, exec (.blkRead 1 0) ready = .fault f := ⟨cfg_ready, by decide, by decide, _, rfl⟩

theorem witness_ReconfiguredWordsReadAsUnwritten :
    readWord filled 84 = .ok 7 ∧ ¬ ((2 : Word) = filled.nrows ∧ (2 : Word) = filled.ncols) :=
  ⟨by rfl, by decide⟩

theorem witness_BlockOperationsAreLanewise : 11 < 12 ∧ 10 + 1 < 12 ∧ 12 ≤ 15 ∧ 15 < 16 := by decide

theorem witness_SeedRow0WritesRowDescending : cfgValid ready = true ∧ (3 : Index).toNat < ready.nrows.toNat := by decide

/-- `ready` with one cell written, column 0 of row 0. -/
def halfRow : State := writeCell ready 0 0 (first 5)

/-- Of row 0 as rowOut only column 0 is read before it is written, although the row is not wholly written. -/
theorem halfRow_written : WrittenWhereReadFirst halfRow (0 : Index).toNat (0 : Index).toNat ∧
    ¬ RowWritten halfRow (0 : Index).toNat := by
  constructor
  · intro c _ h
    obtain rfl : c = 0 := by
      have h2 : c < 2 - c := h rfl
      omega
    exact isOk_cellWritten (by decide)
  · intro h
    obtain ⟨w, hw⟩ := h 1 (by decide) 0 (by decide)
    cases hw

/-- R120: with rowIn = rowOut, and in DUPLEX_SETUP with all rows equal, that is enough for the command to complete. -/
theorem test_aliased_half_row :
    (shows (exec (.duplexRow1 0 0) halfRow) (fun _ => ())).isSome = true ∧
    (shows (exec (.duplexSetup 0 0 0) halfRow) (fun _ => ())).isSome = true := by decide +kernel

/-- Two different rows, and one row half written. -/
theorem witness_DuplexRow1RunsItsColumns :
    (cfgValid filled = true ∧ (0 : Index).toNat < filled.nrows.toNat ∧ (3 : Index).toNat < filled.nrows.toNat ∧
      WrittenWhereReadFirst filled (0 : Index).toNat (3 : Index).toNat) ∧
    (cfgValid halfRow = true ∧ (0 : Index).toNat < halfRow.nrows.toNat ∧
      WrittenWhereReadFirst halfRow (0 : Index).toNat (0 : Index).toNat) :=
  ⟨⟨cfg_filled, by decide, by decide, (filled_row 0).writtenWhereReadFirst _⟩, by decide, by decide, halfRow_written.1⟩

/-- Three different rows, and one row half written. -/
theorem witness_DuplexSetupRunsItsColumns :
    (cfgValid filled = true ∧ (1 : Index).toNat < filled.nrows.toNat ∧ (0 : Index).toNat < filled.nrows.toNat ∧
      (3 : Index).toNat < filled.nrows.toNat ∧ WrittenWhereReadFirst filled (1 : Index).toNat (3 : Index).toNat ∧
      WrittenWhereReadFirst filled (0 : Index).toNat (3 : Index).toNat) ∧
    (cfgValid halfRow = true ∧ (0 : Index).toNat < halfRow.nrows.toNat ∧
      WrittenWhereReadFirst halfRow (0 : Index).toNat (0 : Index).toNat) :=
  ⟨⟨cfg_filled, by decide, by decide, by decide, (filled_row 1).writtenWhereReadFirst _, (filled_row 0).writtenWhereReadFirst _⟩,
    by decide, by decide, halfRow_written.1⟩

theorem witness_DuplexWanderRunsItsColumns :
    cfgValid filled = true ∧ (3 : Index).toNat < filled.nrows.toNat ∧ (2 : Index).toNat < filled.nrows.toNat ∧
    (2 : Index).toNat < filled.nrows.toNat ∧ RowWritten filled (3 : Index).toNat ∧ RowWritten filled (2 : Index).toNat ∧
    RowWritten filled (2 : Index).toNat :=
  ⟨cfg_filled, by decide, by decide, by decide, filled_row 3, filled_row 2, filled_row 2⟩

/-- Both sides of each equivalence occur: faults on an unwritten row 1 and on row 0 half written, and rows written as
far as each command needs. -/
theorem witness_DuplexFaultsExactlyOnUnwrittenReads :
    (cfgValid halfRow = true ∧ (0 : Index).toNat < halfRow.nrows.toNat ∧ (1 : Index).toNat < halfRow.nrows.toNat) ∧
    ((∃ f, exec (.duplexRow1 1 0) halfRow = .fault f) ∧ (∃ f, exec (.duplexSetup 0 1 0) halfRow = .fault f) ∧
      ∃ f, exec (.duplexWander 0 0 0) halfRow = .fault f) ∧
    (WrittenWhereReadFirst halfRow (0 : Index).toNat (0 : Index).toNat ∧ RowWritten filled (0 : Index).toNat) :=
  ⟨by decide, ⟨⟨_, rfl⟩, ⟨_, rfl⟩, _, rfl⟩,
    halfRow_written.1, filled_row 0⟩

theorem witness_NoFeedbackIntoRowIn :
    (0 : Index) ≠ 1 ∧ (0 : Index) ≠ 2 ∧ (shows (exec (.duplexRow1 0 1) filled) (fun _ => ())).isSome = true ∧
    (shows (exec (.duplexSetup 0 2 1) filled) (fun _ => ())).isSome = true ∧
    (shows (exec (.duplexWander 0 2 1) filled) (fun _ => ())).isSome = true ∧ inRow filled 0 0 :=
  ⟨by decide, by decide, by decide, by decide, by decide, 0, by decide, by decide, by decide⟩

theorem witness_DuplexRow1OverwritesFresh :
    let s' := writeCell filled 1 0 (first 99)
    (0 : Index) ≠ 1 ∧ s' = { filled with matrix := s'.matrix } ∧
    SameOutside filled s' (inRow filled (1 : Index).toNat) ∧ cfgValid filled = true ∧
    (0 : Index).toNat < filled.nrows.toNat ∧ (1 : Index).toNat < filled.nrows.toNat ∧
    (shows (exec (.duplexRow1 0 1) filled) (fun _ => ())).isSome = true := by
  refine ⟨by decide, rfl, fun a ha => lookup_writeCell_other filled 1 0 (first 99) a ?_, cfg_filled, by decide, by decide,
    by decide⟩
  by_contra h
  refine ha ⟨0, by decide, ?_⟩
  show cellAddr filled 1 0 ≤ a ∧ a < cellAddr filled 1 0 + 12
  omega

theorem witness_WanderOnCoincidingRows :
    cfgValid filled = true ∧ (3 : Index).toNat < filled.nrows.toNat ∧ (0 : Index).toNat < filled.nrows.toNat ∧
    (shows (exec (.duplexWander 3 0 0) filled) (fun _ => ())).isSome = true :=
  ⟨cfg_filled, by decide, by decide, by decide⟩

end Sys2Proof.Tests
end

section
/-! The statements of 00_scope.md: the constants MEM_WORDS and BLOCK_BASE (R10), ROTR (R13) and the block
operations (R14). -/

namespace Sys2Proof.Machine

/-! ### The OPEN parameters are constants (R10) -/

/-- R82: no command changes the parameters, whether it fails a check or performs. -/
theorem exec_params {i : Instr} {s t : State} (h : exec i s = .next t) : t.params = s.params := by
  rcases exec_next_cases h with (rfl | rfl | rfl) | hp
  · exact raise_params _ _ s
  · exact raise_params _ _ s
  · exact raise_params _ _ s
  · rw [hp.control]

theorem sequencerStep_params {s t : State} (h : sequencerStep s = .next t) : t.params = s.params := by
  obtain ⟨-, rfl⟩ | ⟨v, -, -, -, rfl⟩ | ⟨v, i, u, -, -, hu, rfl⟩ := sequencerStep_next_cases h
  · rfl
  · rw [retire_params, raise_params]
  · rw [retire_params, exec_params hu]

@[simp] theorem writeIdle_params (r : HostReg) (v : Word) (s : State) : (writeIdle r v s).params = s.params := by
  obtain h | ⟨-, -, h⟩ | ⟨-, -, h⟩ | ⟨-, h⟩ | ⟨-, h⟩ | ⟨i, -, h⟩ | ⟨i, -, h⟩ := writeIdle_cases r v s <;> simp [h]

@[simp] theorem hostWrite_params (off : Nat) (v : Word) (s : State) : (hostWrite off v s).params = s.params := by
  cases hb : s.busy with
  | true => rw [hostWrite_busy off v s hb, raise_params]
  | false => rw [hostWrite_idle off v s hb, writeIdle_params]

@[simp] theorem hostRead_params (off : Nat) (s : State) : (hostRead off s).params = s.params := by
  rw [hostRead_eq]

@[simp] theorem resetBlock_params (s : State) : (resetBlock s).params = s.params := rfl

/-- Settles O10: each of the three movers, the host, the platform and the sequencer, keeps the parameters. -/
theorem stepKeepsParameters : Obligations.StepKeepsParameters := by
  intro s t h
  obtain ⟨-, h⟩ | ⟨rest, -, h⟩ | ⟨rest, -, rfl⟩ | ⟨addr, width, v, rest, off, -, -, rfl⟩ |
    ⟨addr, width, rest, off, -, -, rfl⟩ := step_next_cases h
  · exact sequencerStep_params h
  · exact (sequencerStep_params h).trans rfl
  · exact resetBlock_params _
  · exact hostWrite_params off v _
  · exact hostRead_params off _

/-! ### ROTR (R13) -/

/-- R13: the bits that ROTR's right shift leaves in place come from n places above, and the bits it drops return at
the top. -/
theorem getLsbD_rotr (x : Word) {n i : Nat} (hn : n < 64) (hi : i < 64) :
    (rotr x n).getLsbD i = x.getLsbD ((i + n) % 64) := by
  rw [rotr_eq_rotateRight x n hn, BitVec.getLsbD_rotateRight, Nat.mod_eq_of_lt hn]
  by_cases h : i < 64 - n
  · have hmod : (i + n) % 64 = n + i := by omega
    simp [h, hmod]
  · have hmod : (i + n) % 64 = i - (64 - n) := by omega
    simp [h, hi, hmod]

/-- Settles O32: the model's two shifts are one rotation, read bit by bit. -/
theorem rotrMovesBitsCyclically : Obligations.RotrMovesBitsCyclically :=
  fun x _n _i _ hn hi => getLsbD_rotr x (Nat.lt_succ_of_le hn) hi

/-! ### The block operations (R14, R102) -/

/-- R14: the last word comes round to word 0. -/
theorem getElem_rotW_zero (X : Block) : (rotW X)[0] = X[11] := getElem_rotW X 0 (by decide)

/-- R14: every other word moves one position up. -/
theorem getElem_rotW_succ (X : Block) (j : Nat) (h : j + 1 < 12) : (rotW X)[j + 1] = X[j] := by
  have hmod : (j + 1 + 11) % 12 = j := by omega
  simp [hmod]

/-- Settles O51 from the lane of each block operation. -/
theorem blockOperationsAreLanewise : Obligations.BlockOperationsAreLanewise :=
  ⟨fun X Y j h => ⟨getElem_blockXor X Y j h, getElem_blockAdd X Y j h⟩,
   fun X => ⟨getElem_rotW_zero X, getElem_rotW_succ X⟩,
   fun S X => ⟨fun j h => ⟨getElem_rate S j h, getElem_xorRate_lt S X j h⟩,
     fun j hj h => getElem_xorRate_ge S X j h hj⟩⟩

end Sys2Proof.Machine
end

section
/-! The statements of 10_state.md: the invariant of every step (R25, R32, R33), BUSY and STATUS (R23, R24), the host's
accesses while idle (R20, R21, R25), reset (R34, R211), and what a command may change (R19, R44) and stop on (R36). -/

namespace Sys2Proof.Machine

/-! ### The register map (R20) -/

/-- R50: an address in the register space has its offset. -/
theorem AccessAt.accessOffset {s : State} {addr : Word} {off : Nat} (h : AccessAt s addr off) :
    accessOffset s.params addr 8 = .ok off := by
  obtain ⟨hoff, hlt, halign⟩ := h
  exact (accessOffset_ok_iff _ _ _ _).mpr ⟨hoff, hlt, rfl, halign⟩

/-- R20: CMD is at offset 0 alone. -/
theorem hostReg_eq_cmd_iff (off : Nat) : hostReg off = .cmd ↔ off = 0 := by
  constructor
  · intro h
    by_contra h0
    simp only [hostReg, if_neg h0] at h
    split_ifs at h
  · rintro rfl; rfl

/-- R20: the reserved offsets between MEMWORDS and S[0], and above D[11]. -/
theorem hostReg_reserved {off : Nat} (h : (0x030 ≤ off ∧ off ≤ 0x078) ∨ 0x160 ≤ off) : hostReg off = .reserved := by
  rw [hostReg, if_neg (by omega), if_neg (by omega), if_neg (by omega), if_neg (by omega), if_neg (by omega),
    if_neg (by omega), dif_neg (by omega), dif_neg (by omega)]

/-! ### STATUS (R23) -/

/-- R23: each bit of STATUS, where ERRCODE fills bits 8 to 15. -/
theorem getLsbD_statusWord (s : State) (k : Nat) :
    (statusWord s).getLsbD k =
      if k = 0 then s.busy else if k = 1 then s.err else if k < 8 then false else
        (errBits s.errCode).getLsbD (k - 8) := by
  simp only [statusWord, BitVec.getLsbD_append, BitVec.getLsbD_ofBool, BitVec.ofNat_eq_ofNat, BitVec.getLsbD_zero]
  match k with
  | 0 => simp
  | 1 => simp
  | k + 2 =>
    by_cases h6 : k < 6
    · simp [h6]
    · obtain ⟨j, rfl⟩ := Nat.exists_eq_add_of_le' (Nat.le_of_not_lt h6)
      have hcode : ¬ j + 6 + 2 < 8 := by omega
      by_cases hj : j < 8
      · simp [hcode, hj]
      · simp [hcode, hj, BitVec.getLsbD_of_ge (errBits s.errCode) j (Nat.le_of_not_lt hj)]

/-- Settles O20 from the bits of STATUS; the codes are the definition's. -/
theorem statusFieldsAndCodes : Obligations.StatusFieldsAndCodes := by
  refine ⟨fun s => ⟨?_, ?_, ?_, fun k hlo hhi => ?_, fun k hk => ?_⟩, rfl, rfl, rfl, rfl, rfl, rfl⟩
  · rw [getLsbD_statusWord, if_pos rfl]
  · rw [getLsbD_statusWord, if_neg (by decide), if_pos rfl]
  · ext j hj
    rw [BitVec.getElem_extractLsb', getLsbD_statusWord, if_neg (by omega), if_neg (by omega), if_neg (by omega),
      Nat.add_sub_cancel_left, BitVec.getLsbD_eq_getElem]
  · rw [getLsbD_statusWord, if_neg (by omega), if_neg (by omega), if_pos (by omega)]
  · rw [getLsbD_statusWord, if_neg (by omega), if_neg (by omega), if_neg (by omega)]
    exact BitVec.getLsbD_of_ge _ _ (by omega)

/-! ### Host accesses while idle (R21, R25) -/

theorem hostRead_idle (off : Nat) (s : State) (h : s.busy = false) :
    hostRead off s = { s with reads := readIdle (hostReg off) s :: s.reads } := by
  simp [hostRead, h]

/-- R21: a read at an offset of the register space while idle. -/
theorem step_read_idle {s : State} {addr : Word} {off : Nat} {rest : List BusEvent}
    (hbus : s.bus = .read addr 8 :: rest) (hat : AccessAt s addr off) (hidle : s.busy = false) :
    step s = .next { s with bus := rest, reads := readIdle (hostReg off) s :: s.reads } := by
  rw [step_read_at hbus hat.accessOffset, hostRead_idle off { s with bus := rest } hidle]
  cases hostReg off <;> rfl

/-- R21: a write at an offset of the register space while idle. -/
theorem step_write_idle {s : State} {addr v : Word} {off : Nat} {rest : List BusEvent}
    (hbus : s.bus = .write addr 8 v :: rest) (hat : AccessAt s addr off) (hidle : s.busy = false) :
    step s = .next (writeIdle (hostReg off) v { s with bus := rest }) := by
  rw [step_write_at hbus hat.accessOffset, hostWrite_idle off v { s with bus := rest } hidle]

/-- Settles O17: the value is the register's, by the register map. -/
theorem readWhileIdle : Obligations.ReadWhileIdle := by
  intro s addr off rest hbus hat hidle
  refine ⟨_, step_read_idle hbus hat hidle, ?_, ?_, ?_, ?_, ?_, fun h => ?_, fun i h => ?_, fun i h => ?_⟩
  · rintro rfl; rfl
  · rintro rfl; rfl
  · rintro rfl; rfl
  · rintro rfl; rfl
  · rintro rfl; rfl
  · rcases h with rfl | h
    · rfl
    · rw [hostReg_reserved h, readIdle]
  · rw [h, hostReg_sponge, readIdle]
  · rw [h, hostReg_data, readIdle]

/-- Settles O18: the write reaches the register of the register map, and no other. -/
theorem writeWhileIdleStores : Obligations.WriteWhileIdleStores := by
  intro s addr v off rest hbus hat hidle
  have hstep := step_write_idle hbus hat hidle
  refine ⟨?_, ?_, fun i h => ⟨_, hstep, ?_⟩, fun i h => ⟨_, hstep, ?_⟩, ?_⟩
  · rintro rfl; exact hstep
  · rintro rfl; exact hstep
  · rw [h, hostReg_sponge, writeIdle]
    exact ⟨rfl, by simp, fun j hj => by simp [Vector.getElem_set_ne, Fin.val_ne_of_ne hj.symm]⟩
  · rw [h, hostReg_data, writeIdle]
    exact ⟨rfl, by simp, fun j hj => by simp [Vector.getElem_set_ne, Fin.val_ne_of_ne hj.symm]⟩
  · rintro (rfl | rfl | h)
    · exact hstep
    · exact hstep
    · rw [hstep, hostReg_reserved h, writeIdle]

/-- Settles O19: bit 1 of the value is what the write looks at. -/
theorem statusWriteClearsLatch : Obligations.StatusWriteClearsLatch := by
  intro s addr v rest hbus hat hidle
  have hstep : step s = .next (writeStatus v { s with bus := rest }) := step_write_idle hbus hat hidle
  constructor
  · intro h
    rw [hstep, writeStatus, clearsLatch, if_pos h]; rfl
  · intro h
    rw [hstep, writeStatus, clearsLatch, h, if_neg Bool.false_ne_true]

/-! ### Reset (R34, R211 to R213) -/

/-- R34: STATUS is 0 after reset. -/
theorem statusWord_resetWith (p : Params) : statusWord (State.resetWith p) = 0 := by
  simp [statusWord, State.resetWith, errBits]

/-- Settles O24: a reset gives the reset values, whatever was pending. -/
theorem resetLeavesResetValues : Obligations.ResetLeavesResetValues := by
  refine ⟨fun s rest hbus => ⟨_, step_reset s rest hbus, ?_⟩, fun p => ?_⟩
  · refine ⟨fun i => ?_, fun i => ?_, rfl, rfl, statusWord_resetWith s.params, rfl, rfl, fun _ => rfl, rfl, rfl⟩
    · simp [resetBlock, State.resetWith]
    · simp [resetBlock, State.resetWith]
  · refine ⟨fun i => ?_, fun i => ?_, rfl, rfl, statusWord_resetWith p, rfl, rfl, fun _ => rfl⟩
    · simp [State.resetWith]
    · simp [State.resetWith]

/-! ### The frame of a command (R19, R26, R31, R44) -/

/-- R82: a command that fails a check raises one of the five errors and does nothing else. -/
theorem CheckFailed.eq_raise {i : Instr} {s t : State} (h : CheckFailed i s t) :
    ∃ code, code ≠ .none ∧ t = raise code (encode i) s := by
  rcases h with h | h | h
  · exact ⟨_, by decide, h⟩
  · exact ⟨_, by decide, h⟩
  · exact ⟨_, by decide, h⟩

/-- Settles O30: raising an error and the datapath both leave the configuration, the slot and the host's side. -/
theorem commandsKeepConfiguration : Obligations.CommandsKeepConfiguration := by
  intro i s t h
  rcases exec_next_cases h with hfail | hp
  · obtain ⟨code, -, rfl⟩ := hfail.eq_raise
    simp
  · rw [hp.control]
    simp

/-- Settles O31: a failed check changes none of S, D and the matrix; a performance stays in its frame. -/
theorem commandsChangeOnlyWhatTheyWrite : Obligations.CommandsChangeOnlyWhatTheyWrite := by
  intro i s t h
  rcases exec_next_cases h with hfail | hp
  · obtain ⟨code, -, rfl⟩ := hfail.eq_raise
    exact ⟨fun a _ => by rw [raise_matrix], fun _ => raise_D _ _ s, fun _ => raise_S _ _ s⟩
  · exact ⟨hp.outside, hp.keepsD, hp.keepsS⟩

/-! ### BUSY (R24) -/

/-- R24: a host write that sets BUSY is an accepted CMD write. -/
theorem hostWrite_sets_busy {off : Nat} {v : Word} {s : State} (hidle : s.busy = false)
    (h : (hostWrite off v s).busy = true) : off = 0 ∧ s.err = false ∧ hostWrite off v s = accept v s := by
  rw [hostWrite_idle off v s hidle] at h ⊢
  obtain h' | ⟨hr, herr, h'⟩ | ⟨-, -, h'⟩ | ⟨-, h'⟩ | ⟨-, h'⟩ | ⟨i, -, h'⟩ | ⟨i, -, h'⟩ :=
    writeIdle_cases (hostReg off) v s
  case inr.inl => exact ⟨(hostReg_eq_cmd_iff off).mp hr, herr, h'⟩
  all_goals simp [h', hidle] at h

/-- R84: no host write clears BUSY. -/
theorem hostWrite_keeps_busy (off : Nat) (v : Word) {s : State} (h : s.busy = true) :
    (hostWrite off v s).busy = true := by
  rw [hostWrite_busy off v s h, raise_busy, h]

@[simp] theorem hostRead_busy (off : Nat) (s : State) : (hostRead off s).busy = s.busy := by rw [hostRead_eq]

/-- R82: the sequencer's step holds an idle block, or ends a command. -/
theorem sequencerStep_ends_command {s t : State} (h : sequencerStep s = .next t) :
    t = s ∨ (s.pending ≠ none ∧ t.busy = false ∧ t.pending = none) := by
  obtain ⟨-, h⟩ | ⟨v, e, hp, -, rfl⟩ | ⟨v, i, u, hp, -, -, rfl⟩ := sequencerStep_next_cases h
  · exact .inl h
  · exact .inr ⟨by simp [hp], rfl, rfl⟩
  · exact .inr ⟨by simp [hp], rfl, rfl⟩

/-- R24: the sequencer clears BUSY only at the end of a command, and never sets it. -/
theorem sequencerStep_busy {s t : State} (h : sequencerStep s = .next t) :
    (s.busy = false → t.busy = false) ∧ (s.busy = true → t.busy = false → s.pending ≠ none ∧ t.pending = none) := by
  obtain rfl | ⟨hp, hb, ht⟩ := sequencerStep_ends_command h
  · exact ⟨id, fun h1 h2 => absurd h2 (by simp [h1])⟩
  · exact ⟨fun _ => hb, fun _ _ => ⟨hp, ht⟩⟩

/-- Settles O12: of the five ways a step goes, only an accepted CMD write sets BUSY, and only a reset and the end of a
command clear it. -/
theorem busyChangesOnlyByCommandOrReset : Obligations.BusyChangesOnlyByCommandOrReset := by
  intro s t h
  obtain ⟨hbus, h⟩ | ⟨rest, hbus, h⟩ | ⟨rest, hbus, rfl⟩ | ⟨addr, width, v, rest, off, hbus, hoff, rfl⟩ |
    ⟨addr, width, rest, off, -, -, rfl⟩ := step_next_cases h
  · obtain ⟨hrise, hfall⟩ := sequencerStep_busy h
    exact ⟨fun h0 h1 => absurd h1 (by simp [hrise h0]), fun h1 h0 => .inr ⟨.inl hbus, hfall h1 h0⟩⟩
  · obtain ⟨hrise, hfall⟩ := sequencerStep_busy h
    exact ⟨fun h0 h1 => absurd h1 (by simp [hrise h0]), fun h1 h0 => .inr ⟨.inr (by simp [hbus]), hfall h1 h0⟩⟩
  · exact ⟨fun _ ht => absurd ht Bool.false_ne_true, fun _ _ => .inl (by rw [hbus]; rfl)⟩
  · constructor
    · intro h0 h1
      obtain ⟨rfl, herr, hacc⟩ := hostWrite_sets_busy (s := { s with bus := rest }) h0 h1
      obtain ⟨haddr, hlt, rfl, halign⟩ := (accessOffset_ok_iff _ _ _ _).mp hoff
      exact ⟨addr, v, by simp [hbus], ⟨haddr, hlt, halign⟩, herr, by rw [hacc, accept_pending]⟩
    · intro h1 h0
      have hkept := hostWrite_keeps_busy off v (s := { s with bus := rest }) h1
      exact absurd h0 (by simp [hkept])
  · rw [hostRead_busy]
    constructor
    · intro h0 h1; exact absurd h1 (by simp [h0])
    · intro h1 h0; exact absurd h0 (by simp [h1])

/-! ### The invariant (R25, R32, R33) -/

/-- The invariant speaks only of the matrix, the parameters, BUSY, the slot and the latch. -/
theorem GoodState.congr {s t : State} (h : GoodState s) (hm : t.matrix = s.matrix) (hp : t.params = s.params)
    (hb : t.busy = s.busy) (hs : t.pending = s.pending) (he : t.err = s.err) (hc : t.errCode = s.errCode)
    (hi : t.errInfo = s.errInfo) : GoodState t := by
  obtain ⟨h1, h2, h3, h4, h5⟩ := h
  rw [← hm] at h1 h2
  rw [← hp] at h2
  rw [← hb, ← hs] at h3
  rw [← he, ← hc] at h4 h5
  rw [← hi] at h4
  exact ⟨h1, h2, h3, h4, h5⟩

/-- R34: reset meets the invariant, whatever the parameters are. -/
theorem GoodState.resetWith (p : Params) : GoodState (State.resetWith p) where
  matrixCanonical := List.Pairwise.nil
  matrixInside _ he := absurd he List.not_mem_nil
  busyIffPending := rfl
  latchClear _ := ⟨rfl, rfl⟩
  latchSet h := absurd h Bool.false_ne_true

/-- Settles O9. -/
theorem resetMeetsInvariant : Obligations.ResetMeetsInvariant :=
  ⟨GoodState.resetWith Config.params, GoodState.resetWith⟩

theorem GoodState.resetBlock {s : State} : GoodState (resetBlock s) :=
  (GoodState.resetWith s.params).congr rfl rfl rfl rfl rfl rfl rfl

/-- R186: raising one of the five errors keeps the invariant. -/
theorem GoodState.raise {s : State} (h : GoodState s) {code : ErrCode} (hcode : code ≠ .none) (info : Word) :
    GoodState (raise code info s) := by
  cases he : s.err with
  | true => rw [raise_of_err code info s he]; exact h
  | false =>
    rw [raise_of_no_err code info s he]
    exact ⟨h.matrixCanonical, h.matrixInside, h.busyIffPending, fun h' => absurd h'.symm Bool.false_ne_true, fun _ => hcode⟩

/-- R191: clearing the latch keeps the invariant. -/
theorem GoodState.clearError {s : State} (h : GoodState s) : GoodState (clearError s) :=
  ⟨h.matrixCanonical, h.matrixInside, h.busyIffPending, fun _ => ⟨rfl, rfl⟩, fun h' => absurd h' Bool.false_ne_true⟩

/-- R81: accepting a command fills the slot and sets BUSY together. -/
theorem GoodState.accept {s : State} (h : GoodState s) (v : Word) : GoodState (accept v s) :=
  ⟨h.matrixCanonical, h.matrixInside, rfl, h.latchClear, h.latchSet⟩

/-- R82: the end of a command empties the slot and clears BUSY together. -/
theorem GoodState.retire {s : State} (h : GoodState s) : GoodState (retire s) :=
  ⟨h.matrixCanonical, h.matrixInside, rfl, h.latchClear, h.latchSet⟩

/-- R43, R110: a row in range of a valid configuration lies below MEM_WORDS. -/
theorem inRow_inside {s : State} (hcfg : cfgValid s = true) {r a : Nat} (hr : r < s.nrows.toNat) (ha : inRow s r a) :
    a < s.params.memWords.toNat := by
  obtain ⟨c, hc, ha⟩ := ha
  exact Nat.lt_of_lt_of_le ha.2 (cellAddr_inside hcfg hr hc)

/-- R110: a command whose checks pass writes only below MEM_WORDS. -/
theorem writesTo_inside {s : State} {i : Instr} {a : Nat} (hcfg : cfgValid s = true)
    (hrow : ∀ r ∈ rowOperands i, r.toNat < s.nrows.toNat) (hcol : ∀ c ∈ colOperands i, c.toNat < s.ncols.toNat)
    (ha : writesTo s i a) : a < s.params.memWords.toNat := by
  cases i with
  | nop | init | permFull | permRed | absorb | absorbSafe | squeeze | blkRead => exact ha.elim
  | blkWrite row col =>
    exact inRow_inside hcfg (hrow row (by simp [rowOperands])) ⟨_, hcol col (by simp [colOperands]), ha⟩
  | seedRow0 o => exact inRow_inside hcfg (hrow o (by simp [rowOperands])) ha
  | duplexRow1 i o => exact inRow_inside hcfg (hrow o (by simp [rowOperands])) ha
  | duplexSetup i io o | duplexWander i io o =>
    rcases ha with ha | ha
    · exact inRow_inside hcfg (hrow o (by simp [rowOperands])) ha
    · exact inRow_inside hcfg (hrow io (by simp [rowOperands])) ha

/-- R82: a command keeps the invariant, whether it fails a check or performs. -/
theorem GoodState.exec {s t : State} (h : GoodState s) {i : Instr} (hexec : exec i s = .next t) : GoodState t := by
  rcases exec_next_cases hexec with hfail | hp
  · obtain ⟨code, hcode, rfl⟩ := hfail.eq_raise
    exact h.raise hcode _
  · have hparams : t.params = s.params := exec_params hexec
    have hinside : ∀ e ∈ t.matrix, e.1 < t.params.memWords.toNat := by
      intro e he
      rw [hparams]
      rcases hp.listed e he with he | ⟨hcfg, hrow, hcol, ha⟩
      · exact h.matrixInside e he
      · exact writesTo_inside hcfg hrow hcol ha
    have hcontrol := hp.control
    refine ⟨hp.canonical h.matrixCanonical, hinside, ?_, ?_, ?_⟩
    · rw [hcontrol]; exact h.busyIffPending
    · rw [hcontrol]; exact h.latchClear
    · rw [hcontrol]; exact h.latchSet

/-- R82: the sequencer's step keeps the invariant. -/
theorem GoodState.sequencerStep {s t : State} (h : GoodState s) (hstep : sequencerStep s = .next t) : GoodState t := by
  obtain ⟨-, rfl⟩ | ⟨v, e, -, -, rfl⟩ | ⟨v, i, u, -, -, hu, rfl⟩ := sequencerStep_next_cases hstep
  · exact h
  · exact (h.raise (by decide) v).retire
  · exact (h.exec hu).retire

/-- R21, R84: a host write keeps the invariant. -/
theorem GoodState.hostWrite {s : State} (h : GoodState s) (off : Nat) (v : Word) : GoodState (hostWrite off v s) := by
  cases hb : s.busy with
  | true => rw [hostWrite_busy off v s hb]; exact h.raise (by decide) _
  | false =>
    rw [hostWrite_idle off v s hb]
    obtain h' | ⟨-, -, h'⟩ | ⟨-, -, h'⟩ | ⟨-, h'⟩ | ⟨-, h'⟩ | ⟨i, -, h'⟩ | ⟨i, -, h'⟩ :=
      writeIdle_cases (hostReg off) v s
    case inr.inl => rw [h']; exact h.accept v
    case inr.inr.inl => rw [h']; exact h.clearError
    all_goals rw [h']; exact h.congr rfl rfl rfl rfl rfl rfl rfl

/-- R49: a host read keeps the invariant. -/
theorem GoodState.hostRead {s : State} (h : GoodState s) (off : Nat) : GoodState (hostRead off s) := by
  rw [hostRead_eq]
  exact h.congr rfl rfl rfl rfl rfl rfl rfl

/-- The invariant does not speak of what the host has still to do. -/
theorem GoodState.withBus {s : State} (h : GoodState s) (rest : List BusEvent) : GoodState { s with bus := rest } :=
  h.congr rfl rfl rfl rfl rfl rfl rfl

/-- Settles O8: each of the three movers, the host, the platform and the sequencer, keeps the invariant. -/
theorem stepKeepsInvariant : Obligations.StepKeepsInvariant := by
  intro s t hs h
  obtain ⟨-, h⟩ | ⟨rest, -, h⟩ | ⟨rest, -, rfl⟩ | ⟨addr, width, v, rest, off, -, -, rfl⟩ |
    ⟨addr, width, rest, off, -, -, rfl⟩ := step_next_cases h
  · exact hs.sequencerStep h
  · exact (hs.withBus rest).sequencerStep h
  · exact GoodState.resetBlock
  · exact (hs.withBus rest).hostWrite off v
  · exact (hs.withBus rest).hostRead off

end Sys2Proof.Machine
end

section
/-! What stops a matrix command (R36, R217): which cells can be read between the columns of a duplex command, and the
statements of 10_state.md about faults. -/

namespace Sys2Proof.Machine

/-! ### A command faults exactly when its performance does not complete -/

theorem exists_error_iff {ε α : Type} (x : Except ε α) : (∃ e, x = .error e) ↔ ¬ ∃ a, x = .ok a := by
  cases x <;> simp

/-- R188: a matrix command whose checks pass faults exactly when its performance does not complete. -/
theorem matrixCommand_faults_iff {i : Instr} {rows cols : List Index} {f : State → Except Fault State} {s : State}
    (hcfg : cfgValid s = true) (hrow : ∀ r ∈ rows, r.toNat < s.nrows.toNat)
    (hcol : ∀ c ∈ cols, c.toNat < s.ncols.toNat) :
    (∃ x, matrixCommand i rows cols f s = .fault x) ↔ ¬ ∃ t, f s = .ok t := by
  simp only [matrixCommand_passes i rows cols f s hcfg hrow hcol, performed_fault_iff, exists_error_iff]

/-! ### The cells that can be read after a cell write -/

@[simp] theorem cellWritten_withS (s : State) (S : Sponge) (r c : Nat) :
    CellWritten (s.withS S) r c ↔ CellWritten s r c := by
  simp [cellWritten_iff]

/-- R15: a cell write makes its own cell readable, and every other as readable as before. -/
theorem cellWritten_writeCell (s : State) {r c r' c' : Nat} (X : Block) (hc : c < s.ncols.toNat)
    (hc' : c' < s.ncols.toNat) :
    CellWritten (writeCell s r c X) r' c' ↔ CellWritten s r' c' ∨ (r' = r ∧ c' = c) := by
  by_cases hrc : r' = r ∧ c' = c
  · obtain ⟨rfl, rfl⟩ := hrc
    simp [cellWritten_iff]
  · have hother : r' ≠ r ∨ c' ≠ c := not_and_or.mp hrc
    simp [cellWritten_iff, readCell_writeCell_other s X hc hc' hother, hrc]

/-- From s to u the cells `added` have become readable, and no others. -/
structure WrittenAlso (added : Nat → Nat → Prop) (s u : State) : Prop where
  ncols : u.ncols = s.ncols
  cells : ∀ r c, c < s.ncols.toNat → (CellWritten u r c ↔ CellWritten s r c ∨ added r c)

theorem WrittenAlso.withS {added : Nat → Nat → Prop} {s u : State} (h : WrittenAlso added s u) (S : Sponge) :
    WrittenAlso added s (u.withS S) :=
  ⟨h.ncols, fun r c hc => by rw [cellWritten_withS, h.cells r c hc]⟩

/-- One more cell is written. -/
theorem WrittenAlso.write {added : Nat → Nat → Prop} {s u : State} (h : WrittenAlso added s u) {r c : Nat}
    (X : Block) (hc : c < s.ncols.toNat) :
    WrittenAlso (fun r' c' => added r' c' ∨ (r' = r ∧ c' = c)) s (writeCell u r c X) := by
  refine ⟨h.ncols, fun r' c' hc' => ?_⟩
  rw [cellWritten_writeCell u X (by rwa [h.ncols]) (by rwa [h.ncols]), h.cells r' c' hc', or_assoc]

/-- A cell that can be read already is written again. -/
theorem WrittenAlso.rewrite {added : Nat → Nat → Prop} {s u : State} (h : WrittenAlso added s u) {r c : Nat}
    (X : Block) (hc : c < s.ncols.toNat) (hw : CellWritten u r c) : WrittenAlso added s (writeCell u r c X) := by
  refine ⟨h.ncols, fun r' c' hc' => ?_⟩
  rw [cellWritten_writeCell u X (by rwa [h.ncols]) (by rwa [h.ncols]), ← h.cells r' c' hc', or_iff_left_iff_imp]
  rintro ⟨rfl, rfl⟩
  exact hw

theorem WrittenAlso.congr {added added' : Nat → Nat → Prop} {s u : State} (h : WrittenAlso added s u)
    (he : ∀ r c, c < s.ncols.toNat → (added' r c ↔ added r c)) : WrittenAlso added' s u :=
  ⟨h.ncols, fun r c hc => by rw [h.cells r c hc, he r c hc]⟩

/-! ### When a column loop completes -/

/-- A loop whose columns each complete exactly when `need` holds of them completes exactly when it holds of all. -/
theorem forColumns_completes_iff {body : Nat → State → Except Fault State} {n : Nat} {s : State}
    (P : Nat → State → Prop) (need : Nat → Prop) (h0 : P 0 s)
    (hkeep : ∀ c u v, c < n → P c u → body c u = .ok v → P (c + 1) v)
    (hneed : ∀ c u, c < n → P c u → ((∃ v, body c u = .ok v) ↔ need c)) :
    (∃ t, forColumns body n s = .ok t) ↔ ∀ c, c < n → need c := by
  constructor
  · rintro ⟨t, ht⟩
    obtain ⟨st, rfl, -, hst⟩ := forColumns_states ht
    have hP : ∀ c, c ≤ n → P c (st c) := by
      intro c
      induction c with
      | zero => exact fun _ => h0
      | succ c ih => exact fun hc => hkeep c _ _ hc (ih (by omega)) (hst c hc)
    exact fun c hc => (hneed c _ hc (hP c hc.le)).mp ⟨_, hst c hc⟩
  · intro hall
    obtain ⟨t, ht, -⟩ := forColumns_completes P h0 fun c u hc hu => by
      obtain ⟨v, hv⟩ := (hneed c u hc hu).mpr (hall c hc)
      exact ⟨v, hv, hkeep c u v hc hu hv⟩
    exact ⟨t, ht⟩

/-- R121: SEED_ROW0 reads no matrix word, so it always completes. -/
theorem seedRow0_completes (o n : Nat) (s : State) : ∃ t, forColumns (seedColumn o n) n s = .ok t := by
  obtain ⟨t, ht, -⟩ := forColumns_completes (body := seedColumn o n) (n := n) (s := s) (fun _ _ => True) trivial
    fun c u _ _ => ⟨_, seedColumn_eq o n c u, trivial⟩
  exact ⟨t, ht⟩

/-- R111: BLK_READ completes exactly when its cell can be read. -/
theorem blkRead_completes_iff (s : State) (r c : Nat) :
    (∃ t, withCell s r c (fun X => .ok (s.withD X)) = .ok t) ↔ CellWritten s r c := by
  rw [cellWritten_iff]
  constructor
  · rintro ⟨t, ht⟩
    obtain ⟨X, hX, -⟩ := (withCell_ok_iff _ _ _ _ _).mp ht
    exact ⟨X, hX⟩
  · rintro ⟨X, hX⟩
    exact ⟨_, withCell_of_ok hX _⟩

/-! ### Rows written from the last column down (R122, R123) -/

/-- The cells that a command has written of row `o`, after c columns from column n - 1 down. -/
def lastColumns (o n c : Nat) (r c' : Nat) : Prop := r = o ∧ n - c ≤ c'

/-- Before the first column none is. -/
theorem WrittenAlso.start (o : Nat) (s : State) : WrittenAlso (lastColumns o s.ncols.toNat 0) s s :=
  ⟨rfl, fun r c hc => by simp [lastColumns, hc]⟩

/-- The write of column c adds one cell to those of the columns before it. -/
theorem WrittenAlso.nextColumn {o c : Nat} {s u : State} (h : WrittenAlso (lastColumns o s.ncols.toNat c) s u)
    (X : Block) (hc : c < s.ncols.toNat) :
    WrittenAlso (lastColumns o s.ncols.toNat (c + 1)) s (writeCell u o (s.ncols.toNat - 1 - c) X) := by
  refine (h.write X (by omega)).congr fun r c' _ => ?_
  unfold lastColumns
  omega

/-- A row is written where it is read first exactly when each cell can be read at its own column's turn. -/
theorem writtenWhereReadFirst_iff_lastColumns {s : State} {r o : Nat} :
    WrittenWhereReadFirst s r o ↔
      ∀ c, c < s.ncols.toNat → CellWritten s r c ∨ lastColumns o s.ncols.toNat c r c := by
  refine forall₂_congr fun c _ => ?_
  unfold lastColumns
  constructor
  · intro h
    by_cases hread : r = o → c < s.ncols.toNat - c
    · exact .inl (h hread)
    · exact .inr (by omega)
  · rintro (h | ⟨hr, hc⟩) hread
    · exact h
    · exact absurd (hread hr) (by omega)

/-- R122: DUPLEX_ROW1 completes exactly when rowIn is written where it is read first. -/
theorem duplexRow1_completes_iff (s : State) (i o : Nat) :
    (∃ t, forColumns (row1Column i o s.ncols.toNat) s.ncols.toNat s = .ok t) ↔ WrittenWhereReadFirst s i o := by
  rw [writtenWhereReadFirst_iff_lastColumns]
  refine forColumns_completes_iff (fun c u => WrittenAlso (lastColumns o s.ncols.toNat c) s u) _
    (WrittenAlso.start o s) (fun c u v hc hu hb => ?_) (fun c u hc hu => ?_)
  · obtain ⟨X, -, rfl⟩ := (row1Column_ok_iff _ _ _ _ _ _).mp hb
    exact (hu.withS _).nextColumn _ hc
  · rw [← hu.cells i c hc, cellWritten_iff]
    simp only [row1Column_ok_iff]
    constructor
    · rintro ⟨v, X, hX, -⟩; exact ⟨X, hX⟩
    · rintro ⟨X, hX⟩; exact ⟨_, X, hX, rfl⟩

/-- R123: DUPLEX_SETUP completes exactly when rowIn and rowInOut are written where they are read first; the cell of
rowInOut that it reads again, it has read before. -/
theorem duplexSetup_completes_iff (s : State) (i io o : Nat) :
    (∃ t, forColumns (setupColumn i io o s.ncols.toNat) s.ncols.toNat s = .ok t) ↔
      WrittenWhereReadFirst s i o ∧ WrittenWhereReadFirst s io o := by
  simp only [writtenWhereReadFirst_iff_lastColumns, ← forall₂_and]
  refine forColumns_completes_iff (fun c u => WrittenAlso (lastColumns o s.ncols.toNat c) s u) _
    (WrittenAlso.start o s) (fun c u v hc hu hb => ?_) (fun c u hc hu => ?_)
  · obtain ⟨X, Y, S, Z, -, -, -, hZ, rfl⟩ := (setupColumn_ok_iff _ _ _ _ _ _ _).mp hb
    exact ((hu.withS S).nextColumn _ hc).rewrite _ hc (cellWritten_iff.mpr ⟨Z, hZ⟩)
  · rw [← hu.cells i c hc, ← hu.cells io c hc]
    simp only [cellWritten_iff, setupColumn_ok_iff]
    constructor
    · rintro ⟨v, X, Y, S, Z, hX, hY, -⟩; exact ⟨⟨X, hX⟩, ⟨Y, hY⟩⟩
    · rintro ⟨⟨X, hX⟩, ⟨Y, hY⟩⟩
      obtain ⟨S, hS⟩ : ∃ S, S = reducedPermutation (xorRate u.S (blockAdd X Y)) := ⟨_, rfl⟩
      have hY' : ∃ Y, readCell (u.withS S) io c = .ok Y := ⟨Y, by rw [readCell_withS, hY]⟩
      obtain ⟨Z, hZ⟩ := readCell_writeCell_readable (u.withS S) (r := o) (c := s.ncols.toNat - 1 - c)
        (blockXor X (rate S)) (by rw [State.withS_ncols, hu.ncols]; omega) (by rwa [State.withS_ncols, hu.ncols]) hY'
      exact ⟨_, X, Y, S, Z, hX, hY, hS, hZ, rfl⟩

/-! ### DUPLEX_WANDER (R124) -/

/-- R124: DUPLEX_WANDER completes exactly when its three rows are written; it writes only cells that it has read. -/
theorem duplexWander_completes_iff (s : State) (i io o : Nat) :
    (∃ t, forColumns (wanderColumn i io o) s.ncols.toNat s = .ok t) ↔
      RowWritten s i ∧ RowWritten s io ∧ RowWritten s o := by
  simp only [RowWritten, ← forall₂_and]
  refine forColumns_completes_iff (fun _ u => WrittenAlso (fun _ _ => False) s u) _
    ⟨rfl, fun r c _ => by simp⟩ (fun c u v hc hu hb => ?_) (fun c u hc hu => ?_)
  · obtain ⟨X, Y, S, W, Z, -, -, -, hW, hZ, rfl⟩ := (wanderColumn_ok_iff _ _ _ _ _ _).mp hb
    exact ((hu.withS S).rewrite _ hc (cellWritten_iff.mpr ⟨W, (readCell_withS _ _ _ _).trans hW⟩)).rewrite
      _ hc (cellWritten_iff.mpr ⟨Z, hZ⟩)
  · have hsame : ∀ r, CellWritten u r c ↔ CellWritten s r c := fun r => by simpa using hu.cells r c hc
    simp only [← hsame, cellWritten_iff, wanderColumn_ok_iff]
    constructor
    · rintro ⟨v, X, Y, S, W, Z, hX, hY, -, hW, -⟩; exact ⟨⟨X, hX⟩, ⟨Y, hY⟩, ⟨W, hW⟩⟩
    · rintro ⟨⟨X, hX⟩, ⟨Y, hY⟩, ⟨W, hW⟩⟩
      obtain ⟨S, hS⟩ : ∃ S, S = reducedPermutation (xorRate u.S (blockAdd X Y)) := ⟨_, rfl⟩
      have hcol : c < (u.withS S).ncols.toNat := by rwa [State.withS_ncols, hu.ncols]
      have hY' : ∃ Y, readCell (u.withS S) io c = .ok Y := ⟨Y, by rw [readCell_withS, hY]⟩
      obtain ⟨Z, hZ⟩ := readCell_writeCell_readable (u.withS S) (r := o) (blockXor W (rate S)) hcol hcol hY'
      exact ⟨_, X, Y, S, W, Z, hX, hY, hS, hW, hZ, rfl⟩

/-! ### The statements -/

/-- Settles O49: the one read is of the cell. -/
theorem blkReadFaultsExactlyOnUnwrittenCell : Obligations.BlkReadFaultsExactlyOnUnwrittenCell := by
  intro s row col hcfg hrow hcol
  rw [← blkRead_completes_iff]
  simp only [exec, execBlkRead]
  exact matrixCommand_faults_iff hcfg (by simp [hrow]) (by simp [hcol])

/-- Settles O56: each primitive's loop completes exactly when what it reads first is written. -/
theorem duplexFaultsExactlyOnUnwrittenReads : Obligations.DuplexFaultsExactlyOnUnwrittenReads := by
  intro s rowIn rowInOut rowOut hcfg hin hout
  rw [← duplexSetup_completes_iff, ← duplexRow1_completes_iff, ← duplexWander_completes_iff]
  simp only [exec, execDuplexRow1, execDuplexSetup, execDuplexWander]
  refine ⟨?_, fun hio => ⟨?_, ?_⟩⟩
  · exact matrixCommand_faults_iff hcfg (by simp [hin, hout]) (by simp)
  · exact matrixCommand_faults_iff hcfg (by simp [hin, hio, hout]) (by simp)
  · exact matrixCommand_faults_iff hcfg (by simp [hin, hio, hout]) (by simp)

/-- R44, R82: a command completes in every state, or it is a matrix command whose performance completes when the rows
it reads are written. -/
theorem exec_completes_or_matrixCommand (i : Instr) (s : State) :
    (∃ t, exec i s = .next t) ∨
    ∃ f, exec i s = matrixCommand i (rowOperands i) (colOperands i) f s ∧
      ((∀ c ∈ colOperands i, c.toNat < s.ncols.toNat) → (∀ r ∈ readRows i, RowWritten s r.toNat) →
        ∃ t, f s = .ok t) := by
  cases i with
  | nop | init | permFull | permRed | absorb | absorbSafe | squeeze => exact .inl ⟨_, rfl⟩
  | blkRead row col =>
    simp only [exec, execBlkRead, rowOperands, colOperands, readRows]
    refine .inr ⟨_, rfl, fun hcol hrows => ?_⟩
    exact (blkRead_completes_iff _ _ _).mpr (hrows row (by simp) _ (hcol col (by simp)))
  | blkWrite row col =>
    simp only [exec, execBlkWrite, rowOperands, colOperands, readRows]
    refine .inr ⟨_, rfl, fun _ _ => ?_⟩
    exact ⟨_, rfl⟩
  | seedRow0 o =>
    simp only [exec, execSeedRow0, rowOperands, colOperands, readRows]
    refine .inr ⟨_, rfl, fun _ _ => ?_⟩
    exact seedRow0_completes _ _ _
  | duplexRow1 i o =>
    simp only [exec, execDuplexRow1, rowOperands, colOperands, readRows]
    refine .inr ⟨_, rfl, fun _ hrows => ?_⟩
    exact (duplexRow1_completes_iff _ _ _).mpr ((hrows i (by simp)).writtenWhereReadFirst _)
  | duplexSetup i io o =>
    simp only [exec, execDuplexSetup, rowOperands, colOperands, readRows]
    refine .inr ⟨_, rfl, fun _ hrows => ?_⟩
    exact (duplexSetup_completes_iff _ _ _ _).mpr ⟨(hrows i (by simp)).writtenWhereReadFirst _,
      (hrows io (by simp)).writtenWhereReadFirst _⟩
  | duplexWander i io o =>
    simp only [exec, execDuplexWander, rowOperands, colOperands, readRows]
    refine .inr ⟨_, rfl, fun _ hrows => ?_⟩
    exact (duplexWander_completes_iff _ _ _ _).mpr
      ⟨hrows i (by simp), hrows io (by simp), hrows o (by simp)⟩

/-- Settles O29: a fault comes from the performance alone, which completes where the rows it reads are written. -/
theorem onlyUnwrittenReadsStopACommand : Obligations.OnlyUnwrittenReadsStopACommand := by
  intro i s
  obtain ⟨t, h⟩ | ⟨f, h, hcompletes⟩ := exec_completes_or_matrixCommand i s
  · rw [h]
    exact ⟨fun _ => by simp, fun _ hf => by cases hf⟩
  · rw [h]
    refine ⟨matrixCommand_not_refused _ _ _ _ _, fun x hx => ?_⟩
    obtain ⟨hcfg, hrow, hcol, herror⟩ := matrixCommand_fault hx
    refine ⟨hcfg, hrow, hcol, ?_⟩
    by_contra! hrows
    obtain ⟨t, ht⟩ := hcompletes hcol hrows
    rw [ht] at herror
    cases herror

end Sys2Proof.Machine
end

section
/-! The statements of 20_memory.md: the byte lanes of a register (R42), the addresses of cells (R43), and what a host
access may not do (R41, R49). -/

namespace Sys2Proof.Machine

/-! ### Byte lanes (R42) -/

/-- R42: bit i of byte lane k is bit 8k + i of the register. -/
theorem getLsbD_byteLanes (v : Word) {k i : Nat} (hk : k < 8) (hi : i < 8) :
    (byteLanes v)[k].getLsbD i = v.getLsbD (8 * k + i) := by
  simp [byteLanes, byteLane, hi]

/-- R42, R46: bit 8k + i of a word is bit i of its byte k. -/
theorem getLsbD_wordOfLanes (b : Vector Byte 8) {k i : Nat} (hk : k < 8) (hi : i < 8) :
    (wordOfLanes b).getLsbD (8 * k + i) = b[k].getLsbD i := by
  -- Each byte above the lowest is appended to those below it: bit 8k + i passes k of them and falls in byte k.
  simp only [wordOfLanes, BitVec.getLsbD_append]
  interval_cases k <;> simp +arith [hi]

/-- R42: the lanes of a register, put together again, are the register. -/
theorem wordOfLanes_byteLanes (v : Word) : wordOfLanes (byteLanes v) = v := by
  refine BitVec.eq_of_getLsbD_eq fun n hn => ?_
  have hk : n / 8 < 8 := by omega
  have hi : n % 8 < 8 := Nat.mod_lt n (by decide)
  rw [← Nat.div_add_mod n 8, getLsbD_wordOfLanes _ hk hi, getLsbD_byteLanes v hk hi]

/-- Settles O23 from the bits of the lanes. -/
theorem byteLanesAreLittleEndian : Obligations.ByteLanesAreLittleEndian :=
  fun v => ⟨wordOfLanes_byteLanes v, fun _ _ hk hi => getLsbD_byteLanes v hk hi⟩

/-! ### The addresses of cells (R43, R110) -/

/-- R43: an address of a cell determines the row, the column and the word. -/
theorem cellAddr_add_inj {s : State} {r c j r' c' j' : Nat} (hc : c < s.ncols.toNat) (hc' : c' < s.ncols.toNat)
    (hj : j < 12) (hj' : j' < 12) (h : cellAddr s r c + j = cellAddr s r' c' + j') : r = r' ∧ c = c' ∧ j = j' := by
  have hcell : r = r' ∧ c = c' := by
    by_contra hne
    have hapart := cellAddr_apart s hc hc' (not_and_or.mp hne)
    omega
  obtain ⟨rfl, rfl⟩ := hcell
  exact ⟨rfl, rfl, Nat.add_left_cancel h⟩

/-- Settles O45: a valid configuration puts the last cell below MEM_WORDS; the cells lie apart whatever NROWS is. -/
theorem cellsLieInsideAndApart : Obligations.CellsLieInsideAndApart := by
  intro s r c j hcfg hr hc hj
  have hinside := cellAddr_inside hcfg hr hc
  exact ⟨rfl, by omega, fun _ _ _ _ hc' hj' heq => cellAddr_add_inj hc hc' hj hj' heq⟩

/-! ### Host accesses (R41, R49) -/

/-- Settles O21: the step is the host read at the access's offset, and that changes only the host's side. -/
theorem readsHaveNoSideEffect : Obligations.ReadsHaveNoSideEffect := by
  intro s t addr width rest hbus hstep
  rw [step_read s addr width rest hbus, atOffset_next_iff] at hstep
  obtain ⟨off, -, rfl⟩ := hstep
  exact hostRead_eq off { s with bus := rest }

/-- R41: an access of the register space with the wrong width or alignment has no offset. -/
theorem accessOffset_misformed {p : Params} {addr : Word} {width : Nat} (hin : (addr - p.blockBase).toNat < 0x200)
    (hform : width ≠ 8 ∨ (addr - p.blockBase).toNat % 8 ≠ 0) :
    accessOffset p addr width = .error (.accessForm addr width) := by
  simp only [accessOffset, if_neg (Nat.not_le.mpr hin), if_pos hform]

/-- R41: an access without an offset is refused for the reason it has none, whatever it would do. -/
theorem atOffset_refused {addr : Word} {width : Nat} {s : State} {r : Refusal}
    (h : accessOffset s.params addr width = .error r) (act : Nat → State → State) :
    atOffset addr width act s = .refused r := by
  simp only [atOffset, h]

/-- Settles O22: neither a write nor a read has an offset to act at. -/
theorem misformedAccessIsRefused : Obligations.MisformedAccessIsRefused := by
  intro s addr width v rest hin hform hbus
  have hoff := accessOffset_misformed hin hform
  rcases hbus with hbus | hbus
  · rw [step_write s addr width v rest hbus]
    exact atOffset_refused (s := { s with bus := rest }) hoff _
  · rw [step_read s addr width rest hbus]
    exact atOffset_refused (s := { s with bus := rest }) hoff _

end Sys2Proof.Machine
end

section
/-! The encoding (30_encoding.md): a word decodes to a command exactly where its fields are that command's, and the
decoder rejects on the grounds of R182 and on no other. -/

namespace Sys2Proof

/-! ### The fields that decode to a command -/

/-- R65: every field that the operation does not use is 0. -/
theorem unusedNonzero_eq_false_iff (r : RawCommand) : unusedNonzero r = false ↔
    (usesA r.op = false → r.a = 0) ∧ (usesB r.op = false → r.b = 0) ∧ (usesC r.op = false → r.c = 0) := by
  simp only [unusedNonzero, Bool.or_eq_false_iff, Bool.and_eq_false_imp, Bool.not_eq_true', bne_eq_false_iff_eq,
    and_assoc]

/-- R62: OP selects the command by exact match, so the command's word has that OP. -/
theorem op_of_commandOf {r : RawCommand} {i : Instr} (h : commandOf r = some i) : r.op = (fieldsFor i).op := by
  unfold commandOf at h
  split at h <;> cases h <;> exact BitVec.eq_of_toNat_eq ‹_›

/-- R65, R67: a command's own fields decode to it. -/
theorem decodeFields_fieldsFor (i : Instr) : decodeFields (fieldsFor i) = .ok i := by
  rw [decodeFields_ok_iff]
  cases i <;> exact ⟨rfl, rfl, rfl⟩

/-- R65: a command's fields are the only ones that decode to it. The OP value is the command's, the operand fields are
its operands, and RSV and the other fields are 0. -/
theorem decodeFields_eq_ok_iff_eq_fieldsFor (r : RawCommand) (i : Instr) :
    decodeFields r = .ok i ↔ r = fieldsFor i := by
  refine ⟨fun h => ?_, fun h => h ▸ decodeFields_fieldsFor i⟩
  obtain ⟨hcmd, hrsv, hunused⟩ := (decodeFields_ok_iff r i).mp h
  obtain ⟨hA, hB, hC⟩ := (unusedNonzero_eq_false_iff r).mp hunused
  have hop := op_of_commandOf hcmd
  obtain ⟨op, a, b, c, rsv⟩ := r
  subst hop hrsv
  cases i <;> simp_all [commandOf, fieldsFor, usesA, usesB, usesC]

/-- Settles O1: the packed fields of a command are read back, and they decode to it. -/
theorem encodeThenDecodeGivesCommand : Obligations.EncodeThenDecodeGivesCommand := fun i =>
  (decode_packFields (fieldsFor i)).trans (decodeFields_fieldsFor i)

/-- Settles O2: the fields of a word that decodes to a command are the command's, and packing them gives the word. -/
theorem decodedWordIsItsEncoding : Obligations.DecodedWordIsItsEncoding := by
  intro v i h
  have hfields : fieldsOf v = fieldsFor i := (decodeFields_eq_ok_iff_eq_fieldsFor _ i).mp h
  rw [encode, ← hfields, packFields_fieldsOf]

/-! ### The words that decode to none -/

/-- R66: the reserved OP values. -/
theorem commandOf_eq_none_iff (r : RawCommand) : commandOf r = none ↔
    r.op.toNat = 0x07 ∨ (0x0A ≤ r.op.toNat ∧ r.op.toNat ≤ 0x0F) ∨ 0x14 ≤ r.op.toNat := by
  unfold commandOf
  split
  case h_14 => grind
  all_goals simp [*]

theorem usesA_eq_false_iff (op : BitVec 8) : usesA op = false ↔ op.toNat ∉ [0x08, 0x09, 0x11, 0x12, 0x13] := by
  simp [usesA, ← BitVec.toNat_inj]

theorem usesB_eq_false_iff (op : BitVec 8) : usesB op = false ↔ op.toNat ∉ [0x08, 0x09, 0x12, 0x13] := by
  simp [usesB, ← BitVec.toNat_inj]

theorem usesC_eq_false_iff (op : BitVec 8) : usesC op = false ↔ op.toNat ∉ [0x10, 0x11, 0x12, 0x13] := by
  simp [usesC, ← BitVec.toNat_inj]

/-- R182: the grounds on the bits of a word are the three checks of R67 on its fields. -/
theorem illegalWord_iff (v : Word) : Machine.IllegalWord v ↔
    commandOf (fieldsOf v) = none ∨ (fieldsOf v).rsv ≠ 0 ∨ ¬ unusedNonzero (fieldsOf v) = false := by
  simp only [commandOf_eq_none_iff, unusedNonzero_eq_false_iff, usesA_eq_false_iff, usesB_eq_false_iff,
    usesC_eq_false_iff, not_and_or, Classical.not_imp]
  rfl

/-- R68: the fields that do not decode fail one of the three checks of R67. -/
theorem decodeFields_error_iff (r : RawCommand) : (∃ e, decodeFields r = .error e) ↔
    commandOf r = none ∨ r.rsv ≠ 0 ∨ ¬ unusedNonzero r = false := by
  simp only [Machine.exists_error_iff, decodeFields_ok_iff, exists_and_right, not_and_or, ← Option.isSome_iff_exists,
    Option.not_isSome_iff_eq_none, ne_eq]

/-- Settles O3: both sides say which check of R67 fails on the fields of the word. -/
theorem decodeRejectsExactlyIllegalWords : Obligations.DecodeRejectsExactlyIllegalWords := fun v =>
  (decodeFields_error_iff (fieldsOf v)).trans (illegalWord_iff v).symm

/-- Settles O4: each worked word is the encoding of its command; of the four illegal examples the first has a reserved
OP, the second a nonzero RSV, the third a nonzero A and the fourth a nonzero B. -/
theorem workedEncodingsDecode : Obligations.WorkedEncodingsDecode :=
  have decodes := encodeThenDecodeGivesCommand
  have rejects v := (decodeRejectsExactlyIllegalWords v).mpr
  ⟨decodes .nop, decodes .init, decodes .absorbSafe, decodes .squeeze, decodes (.blkRead 1 0),
    decodes (.blkWrite 3 2), decodes (.seedRow0 0), decodes (.duplexRow1 0 1), decodes (.duplexSetup 1 0 2),
    decodes (.duplexSetup 2 1 3), decodes (.duplexWander 3 2 0), decodes (.duplexWander 0 1 1),
    decodes (.duplexWander 65535 65535 65535),
    rejects _ (.inl (by decide)), rejects _ (.inr (.inl (by decide))), rejects _ (.inr (.inr (.inl (by decide)))),
    rejects _ (.inr (.inr (.inr (.inl (by decide)))))⟩

end Sys2Proof
end

section
/-! The statements of 40_issue.md: the sequencer's step and the end of a run (R82, R86, R88), what of the block it
depends on (R89), and the host's accesses to CMD and while BUSY = 1 (R81, R83 to R85). -/

namespace Sys2Proof.Machine

/-! ### The sequencer's step (R82) -/

/-- R80: a step on the sequencer's turn is the sequencer's, with the turn taken off the bus. -/
theorem step_on_sequencersTurn {s : State} (h : SequencersTurn s) :
    step s = sequencerStep { s with bus := s.bus.tail } := by
  cases hbus : s.bus with
  | nil => rw [step_nil s hbus, List.tail_nil, ← hbus]
  | cons e rest =>
    obtain rfl : e = .sequencer := by simpa [SequencersTurn, hbus] using h
    exact step_sequencer s rest hbus

/-- R82: a pending word that decodes is run and retired. -/
theorem sequencerStep_of_decode_ok {s : State} {v : Word} {i : Instr} (hp : s.pending = some v)
    (hd : decode v = .ok i) : sequencerStep s = retired (exec i s) := by
  simp only [sequencerStep, hp, runCommand, hd]

/-- R82, R182: a pending word that does not decode raises ILLEGAL_OP and is retired. -/
theorem sequencerStep_of_decode_error {s : State} {v : Word} {e : DecodeReject} (hp : s.pending = some v)
    (hd : decode v = .error e) : sequencerStep s = .next (retire (raise .illegalOp v s)) := by
  simp only [sequencerStep, hp, runCommand, hd, retired]

/-- Settles O5: the three outcomes of the command are the three outcomes of the step. -/
theorem stepRunsDecodedCommand : Obligations.StepRunsDecodedCommand := by
  intro s v i hturn hp hd
  have hstep : step s = retired (exec i { s with bus := s.bus.tail }) :=
    (step_on_sequencersTurn hturn).trans (sequencerStep_of_decode_ok hp hd)
  rw [hstep]
  refine ⟨fun t ht => ?_, fun f hf => ?_, fun r hr => ?_⟩
  · exact (retired_next_iff _ _).mpr ⟨t, ht, rfl⟩
  · exact (retired_fault_iff _ _).mpr hf
  · exact (retired_refused_iff _ _).mpr hr

/-- Settles O6: an illegal word is one that does not decode, and `raise` keeps an error already latched. -/
theorem illegalWordLatchesIllegalOp : Obligations.IllegalWordLatchesIllegalOp := by
  intro s v hturn hp hillegal
  obtain ⟨e, hd⟩ := (decodeRejectsExactlyIllegalWords v).mpr hillegal
  have hstep : step s = .next (retire (raise .illegalOp v { s with bus := s.bus.tail })) :=
    (step_on_sequencersTurn hturn).trans (sequencerStep_of_decode_error hp hd)
  rw [hstep]
  split_ifs with herr
  · rw [raise_of_err _ _ { s with bus := s.bus.tail } herr]; rfl
  · rw [raise_of_no_err _ _ { s with bus := s.bus.tail } (Bool.eq_false_iff.mpr herr)]; rfl

/-! ### The latch after a command (R186) -/

/-- Settles O27: a failed check raises, which does nothing while an error is latched; a performance does not touch the
latch. -/
theorem failingCommandChangesOnlyTheLatch : Obligations.FailingCommandChangesOnlyTheLatch := by
  intro i s t h
  rcases exec_next_cases h with hfail | hp
  · cases herr : s.err with
    | true =>
      simp only [CheckFailed, raise_of_err _ _ s herr, or_self] at hfail
      exact .inl (by simp [hfail, herr])
    | false =>
      simp only [CheckFailed, raise_of_no_err _ _ s herr] at hfail
      exact .inr ⟨rfl, hfail⟩
  · left
    rw [hp.control]
    exact ⟨rfl, rfl, rfl⟩

/-- R186: the sequencer's step keeps an error already latched. -/
theorem sequencerStep_keeps_latched_error {s t : State} (h : sequencerStep s = .next t) (herr : s.err = true) :
    t.err = true ∧ t.errCode = s.errCode ∧ t.errInfo = s.errInfo := by
  obtain ⟨-, rfl⟩ | ⟨v, e, -, -, rfl⟩ | ⟨v, i, u, -, -, hu, rfl⟩ := sequencerStep_next_cases h
  · exact ⟨herr, rfl, rfl⟩
  · rw [raise_of_err _ _ s herr]
    exact ⟨herr, rfl, rfl⟩
  · rcases failingCommandChangesOnlyTheLatch i s u hu with ⟨he, hc, hi⟩ | ⟨hnone, -⟩
    · exact ⟨he.trans herr, hc, hi⟩
    · exact absurd herr (by simp [hnone])

/-! ### The end of a run (R86, R88) -/

/-- R82: the sequencer's step leaves the host's side as it is. -/
theorem sequencerStep_host {s t : State} (h : sequencerStep s = .next t) :
    t.bus = s.bus ∧ t.reads = s.reads ∧ t.draws = s.draws := by
  obtain ⟨-, rfl⟩ | ⟨v, e, -, -, rfl⟩ | ⟨v, i, u, -, -, hu, rfl⟩ := sequencerStep_next_cases h
  · exact ⟨rfl, rfl, rfl⟩
  · simp
  · obtain ⟨-, -, -, -, -, hhost⟩ := commandsKeepConfiguration i s u hu
    exact hhost

/-- R82: the sequencer's step leaves the slot empty. -/
theorem sequencerStep_pending {s t : State} (h : sequencerStep s = .next t) : t.pending = none := by
  obtain ⟨hp, rfl⟩ | ⟨v, e, -, -, rfl⟩ | ⟨v, i, u, -, -, -, rfl⟩ := sequencerStep_next_cases h
  · exact hp
  · rfl
  · rfl

@[simp] theorem hostWrite_bus (off : Nat) (v : Word) (s : State) : (hostWrite off v s).bus = s.bus := by
  cases hb : s.busy with
  | true => rw [hostWrite_busy off v s hb, raise_bus]
  | false =>
    rw [hostWrite_idle off v s hb]
    obtain h | ⟨-, -, h⟩ | ⟨-, -, h⟩ | ⟨-, h⟩ | ⟨-, h⟩ | ⟨i, -, h⟩ | ⟨i, -, h⟩ :=
      writeIdle_cases (hostReg off) v s <;> simp [h]

@[simp] theorem hostRead_bus (off : Nat) (s : State) : (hostRead off s).bus = s.bus := by rw [hostRead_eq]

/-- A step uses up the next event of the bus, if there is one. -/
theorem step_bus {s t : State} (h : step s = .next t) : t.bus = s.bus.tail := by
  obtain ⟨hbus, h⟩ | ⟨rest, hbus, h⟩ | ⟨rest, hbus, rfl⟩ | ⟨addr, width, v, rest, off, hbus, -, rfl⟩ |
    ⟨addr, width, rest, off, hbus, -, rfl⟩ := step_next_cases h
  · rw [(sequencerStep_host h).1, hbus, List.tail_nil]
  · rw [(sequencerStep_host h).1, hbus, List.tail_cons]
  · rw [hbus]; rfl
  · rw [hbus, hostWrite_bus, List.tail_cons]
  · rw [hbus, hostRead_bus, List.tail_cons]

/-- R33: in a good state with an empty slot and nothing left on the bus the run is over. -/
theorem GoodState.runOver {s : State} (h : GoodState s) (hbus : s.bus = []) (hp : s.pending = none) : RunOver s :=
  ⟨hbus, by rw [h.busyIffPending, hp, Option.isSome_none]⟩

/-- Settles O11, by induction on the run: each step uses up one event, and the last is the sequencer's. -/
theorem runIsOverWhenEventsAreUsedUp : Obligations.RunIsOverWhenEventsAreUsedUp := by
  intro s t hgood hrun
  generalize hn : s.bus.length + 1 = n at hrun
  induction hrun with
  | done s => cases hn
  | @step n s u t first rest ih =>
    have hu : GoodState u := stepKeepsInvariant s u hgood first
    have hbus : u.bus = s.bus.tail := step_bus first
    cases hs : s.bus with
    | nil =>
      obtain rfl : n = 0 := by simpa [hs] using hn.symm
      cases rest
      have hp : u.pending = none := sequencerStep_pending (step_nil s hs ▸ first)
      exact ⟨hu.runOver (by rw [hbus, hs, List.tail_nil]) hp, hp⟩
    | cons e events =>
      refine ih hu ?_
      simpa [hbus, hs] using hn

/-! ### What the sequencer's step does not read (R82, R89) -/

/-- The state with BUSY, ERRCODE, ERRINFO and the host's side of another: what the sequencer's step may leave but never
reads. -/
def State.withUnreadOf (s c : State) : State :=
  { s with busy := c.busy, errCode := c.errCode, errInfo := c.errInfo, bus := c.bus, reads := c.reads, draws := c.draws }

@[simp] theorem State.withUnreadOf_S (s c : State) : (s.withUnreadOf c).S = s.S := rfl

@[simp] theorem State.withUnreadOf_withS (s c : State) (S : Sponge) :
    (s.withUnreadOf c).withS S = (s.withS S).withUnreadOf c := rfl

@[simp] theorem State.withUnreadOf_writeCell (s c : State) (row col : Nat) (X : Block) :
    writeCell (s.withUnreadOf c) row col X = (writeCell s row col X).withUnreadOf c := rfl

/-- Two states that agree on what the sequencer reads differ in the rest alone. -/
theorem State.eq_withUnreadOf {s s' : State} (hpending : s'.pending = s.pending) (hS : s'.S = s.S) (hD : s'.D = s.D)
    (hnrows : s'.nrows = s.nrows) (hncols : s'.ncols = s.ncols) (herr : s'.err = s.err)
    (hmatrix : s'.matrix = s.matrix) (hparams : s'.params = s.params) : s' = s.withUnreadOf s' := by
  rw [State.withUnreadOf, ← hpending, ← hS, ← hD, ← hnrows, ← hncols, ← herr, ← hmatrix, ← hparams]

/-- R89: a performance that takes no notice of those fields: it completes alike and carries them over. -/
def IgnoresUnread (f : State → Except Fault State) : Prop :=
  ∀ c s, f (s.withUnreadOf c) = (f s).map (·.withUnreadOf c)

/-- A performance that carries those fields over from any state leaves its own as they were. -/
theorem IgnoresUnread.keeps {f : State → Except Fault State} (hf : IgnoresUnread f) {s t : State} (h : f s = .ok t) :
    t = t.withUnreadOf s := by
  have hself : f s = (f s).map (·.withUnreadOf s) := hf s s
  rw [h] at hself
  exact Except.ok.inj hself

/-- R120: the snapshot of a cell is the same, so only what is done with it matters. -/
theorem withCell_withUnreadOf {s c : State} {row col : Nat} {k k' : Block → Except Fault State}
    (hk : ∀ X, k' X = (k X).map (·.withUnreadOf c)) :
    withCell (s.withUnreadOf c) row col k' = (withCell s row col k).map (·.withUnreadOf c) := by
  have hread : readCell (s.withUnreadOf c) row col = readCell s row col := memRead_congr fun _ _ => rfl
  unfold withCell
  rw [hread]
  cases readCell s row col with
  | error f => rfl
  | ok X => exact hk X

/-! In the columns `simp` moves `withUnreadOf` outwards by rewriting. It may not do so by definitional unfolding: the
kernel would then compare the two states by running the permutation. -/

theorem seedColumn_ignoresUnread (o n col : Nat) : IgnoresUnread (seedColumn o n col) := by
  intro c s
  simp -implicitDefEqProofs only [seedColumn, State.withUnreadOf_S, State.withUnreadOf_withS,
    State.withUnreadOf_writeCell, Except.map]

theorem row1Column_ignoresUnread (i o n col : Nat) : IgnoresUnread (row1Column i o n col) := by
  intro c s
  simp -implicitDefEqProofs only [row1Column, State.withUnreadOf_S, State.withUnreadOf_withS,
    State.withUnreadOf_writeCell]
  exact withCell_withUnreadOf fun _ => rfl

theorem setupColumn_ignoresUnread (i io o n col : Nat) : IgnoresUnread (setupColumn i io o n col) := by
  intro c s
  simp -implicitDefEqProofs only [setupColumn, State.withUnreadOf_S, State.withUnreadOf_withS,
    State.withUnreadOf_writeCell]
  exact withCell_withUnreadOf fun _ => withCell_withUnreadOf fun _ => withCell_withUnreadOf fun _ => rfl

theorem wanderColumn_ignoresUnread (i io o col : Nat) : IgnoresUnread (wanderColumn i io o col) := by
  intro c s
  simp -implicitDefEqProofs only [wanderColumn, State.withUnreadOf_S, State.withUnreadOf_withS,
    State.withUnreadOf_writeCell]
  exact withCell_withUnreadOf fun _ => withCell_withUnreadOf fun _ => withCell_withUnreadOf fun _ =>
    withCell_withUnreadOf fun _ => rfl

/-- R120: a loop whose columns ignore those fields ignores them. -/
theorem forColumns_ignoresUnread {body : Nat → State → Except Fault State} (hbody : ∀ col, IgnoresUnread (body col))
    (n : Nat) : IgnoresUnread (forColumns body n) := by
  intro c s
  induction n with
  | zero => rfl
  | succ n ih =>
    simp only [forColumns, ih]
    cases forColumns body n s with
    | error f => rfl
    | ok u => exact hbody n c u

/-! ### Two states that differ in those fields alone are left alike (R89) -/

/-- R89: what t and t', left from s and c, have in common: everything that the sequencer reads, and each of BUSY,
ERRCODE and ERRINFO that s and c have in common. -/
structure LeftAlike (s c t t' : State) : Prop where
  block : ∃ d, t' = t.withUnreadOf d
  busy : c.busy = s.busy → t'.busy = t.busy
  errCode : c.errCode = s.errCode → t'.errCode = t.errCode
  errInfo : c.errInfo = s.errInfo → t'.errInfo = t.errInfo

/-- States left by operations that keep the fields that the sequencer does not read. -/
theorem LeftAlike.of_kept {s t : State} (c : State) (h : t = t.withUnreadOf s) : LeftAlike s c t (t.withUnreadOf c) := by
  rw [h]
  exact ⟨⟨c, rfl⟩, id, id, id⟩

/-- R186: whether an error is latched depends on ERR alone. -/
theorem LeftAlike.raise (s c : State) (code : ErrCode) (info : Word) :
    LeftAlike s c (raise code info s) (raise code info (s.withUnreadOf c)) := by
  cases herr : s.err with
  | true =>
    rw [raise_of_err code info s herr, raise_of_err code info (s.withUnreadOf c) herr]
    exact .of_kept c rfl
  | false =>
    rw [raise_of_no_err code info s herr, raise_of_no_err code info (s.withUnreadOf c) herr]
    exact ⟨⟨{ c with errCode := code, errInfo := info }, rfl⟩, id, fun _ => rfl, fun _ => rfl⟩

/-- R82: the end of a command keeps what two states have in common. -/
theorem LeftAlike.retire {s c t t' : State} (h : LeftAlike s c t t') : LeftAlike s c (retire t) (retire t') := by
  obtain ⟨d, hd⟩ := h.block
  exact ⟨⟨{ d with busy := false }, by rw [hd]; rfl⟩, fun _ => rfl, h.errCode, h.errInfo⟩

/-- R89: where m answers, it answers from every state that differs only in what the sequencer does not read, and leaves
the two alike. -/
def AnswersAlike (m : State → Host.Outcome State Fault Refusal) : Prop :=
  ∀ c s t, m s = .next t → ∃ t', m (s.withUnreadOf c) = .next t' ∧ LeftAlike s c t t'

/-- A command that always completes, and ignores those fields. -/
theorem AnswersAlike.of_next {m : State → Host.Outcome State Fault Refusal} {g : State → State}
    (hm : ∀ s, m s = .next (g s)) (hg : ∀ c s, g (s.withUnreadOf c) = (g s).withUnreadOf c) : AnswersAlike m := by
  intro c s t h
  rw [hm, Host.Outcome.next.injEq] at h
  subst h
  exact ⟨_, hm _, hg c s ▸ .of_kept c (hg s s)⟩

/-- R188: the checks of a matrix command read only NROWS, NCOLS and MEM_WORDS. -/
theorem matrixCommand_answersAlike {i : Instr} {rows cols : List Index} {f : State → Except Fault State}
    (hf : IgnoresUnread f) : AnswersAlike (matrixCommand i rows cols f) := by
  intro c s t h
  have hchecks : matrixCommand i rows cols f (s.withUnreadOf c) =
      if !cfgValid s then .next (raise .cfgInvalid (encode i) (s.withUnreadOf c))
      else if !rows.all (rowInRange s) then .next (raise .rowRange (encode i) (s.withUnreadOf c))
      else if !cols.all (colInRange s) then .next (raise .colRange (encode i) (s.withUnreadOf c))
      else performed (f (s.withUnreadOf c)) := rfl
  rw [hchecks]
  unfold matrixCommand at h
  split_ifs at h ⊢
  case neg =>
    rw [performed_next_iff] at h
    exact ⟨_, by rw [hf, h]; rfl, .of_kept c (hf.keeps h)⟩
  all_goals
    cases h
    exact ⟨_, rfl, .raise s c _ _⟩

theorem exec_answersAlike (i : Instr) : AnswersAlike (exec i) := by
  cases i with
  | nop | init | permFull | permRed | absorb | absorbSafe | squeeze =>
    exact .of_next (fun _ => rfl) fun _ _ => rfl
  | blkRead row col => exact matrixCommand_answersAlike fun _ _ => withCell_withUnreadOf fun _ => rfl
  | blkWrite row col => exact matrixCommand_answersAlike fun _ _ => rfl
  | seedRow0 o =>
    exact matrixCommand_answersAlike fun c s =>
      forColumns_ignoresUnread (fun _ => seedColumn_ignoresUnread _ _ _) _ c s
  | duplexRow1 i o =>
    exact matrixCommand_answersAlike fun c s =>
      forColumns_ignoresUnread (fun _ => row1Column_ignoresUnread _ _ _ _) _ c s
  | duplexSetup i io o =>
    exact matrixCommand_answersAlike fun c s =>
      forColumns_ignoresUnread (fun _ => setupColumn_ignoresUnread _ _ _ _ _) _ c s
  | duplexWander i io o =>
    exact matrixCommand_answersAlike fun c s =>
      forColumns_ignoresUnread (fun _ => wanderColumn_ignoresUnread _ _ _ _) _ c s

theorem sequencerStep_answersAlike : AnswersAlike sequencerStep := by
  intro c s t h
  obtain ⟨hp, rfl⟩ | ⟨v, e, hp, hd, rfl⟩ | ⟨v, i, u, hp, hd, hu, rfl⟩ := sequencerStep_next_cases h
  · have hidle : sequencerStep (t.withUnreadOf c) = .next (t.withUnreadOf c) := by
      simp only [sequencerStep, show (t.withUnreadOf c).pending = none from hp]
    exact ⟨_, hidle, .of_kept c rfl⟩
  · exact ⟨_, sequencerStep_of_decode_error hp hd, (LeftAlike.raise s c _ _).retire⟩
  · obtain ⟨u', hu', halike⟩ := exec_answersAlike i c s u hu
    refine ⟨_, ?_, halike.retire⟩
    rw [sequencerStep_of_decode_ok (s := s.withUnreadOf c) hp hd, hu', retired]

/-- R82: where a command was pending, BUSY is 0 after the sequencer's step. -/
theorem sequencerStep_clears_busy {s t : State} (h : sequencerStep s = .next t) (hp : s.pending ≠ none) :
    t.busy = false := by
  obtain ⟨hnone, -⟩ | ⟨v, e, -, -, rfl⟩ | ⟨v, i, u, -, -, -, rfl⟩ := sequencerStep_next_cases h
  · exact absurd hnone hp
  · rfl
  · rfl

/-- Settles O13: the two states differ only in what the sequencer does not read, so it leaves them alike; in good states
BUSY agrees because the slot does, and the latch is clear in both while ERR = 0. -/
theorem sequencerDependsOnlyOnBlockState : Obligations.SequencerDependsOnlyOnBlockState := by
  intro s s' t hpending hS hD hnrows hncols herr hmatrix hparams h
  have hs' : s' = s.withUnreadOf s' := State.eq_withUnreadOf hpending hS hD hnrows hncols herr hmatrix hparams
  obtain ⟨t', h', ⟨d, rfl⟩, hbusy, hcode, hinfo⟩ := sequencerStep_answersAlike s' s t h
  rw [← hs'] at h'
  obtain ⟨-, -, hdraws⟩ := sequencerStep_host h
  refine ⟨hdraws, sequencerStep_keeps_latched_error h, t.withUnreadOf d, h', rfl, rfl, rfl, rfl, rfl, rfl, rfl, ?_,
    hcode, hinfo, fun hgood hgood' => ⟨hbusy ?_, fun hnone => ?_⟩⟩
  · rintro (hp | hb)
    · rw [sequencerStep_clears_busy h hp, sequencerStep_clears_busy h' (hpending ▸ hp)]
    · exact hbusy hb
  · rw [hgood.busyIffPending, hgood'.busyIffPending, hpending]
  · obtain ⟨hc, hi⟩ := hgood.latchClear hnone
    obtain ⟨hc', hi'⟩ := hgood'.latchClear (herr.trans hnone)
    exact ⟨hcode (hc'.trans hc.symm), hinfo (hi'.trans hi.symm)⟩

/-! ### Host accesses to CMD, and while BUSY = 1 (R81, R83 to R85) -/

/-- R84: a write at an offset of the register space while busy raises BUSY_WRITE. -/
theorem step_write_busy {s : State} {addr v : Word} {off : Nat} {rest : List BusEvent}
    (hbus : s.bus = .write addr 8 v :: rest) (hat : AccessAt s addr off) (hbusy : s.busy = true) :
    step s = .next (raise .busyWrite (BitVec.ofNat 64 off) { s with bus := rest }) := by
  rw [step_write_at hbus hat.accessOffset, hostWrite_busy off v { s with bus := rest } hbusy]

/-- Settles O14: while idle the write reaches CMD, which looks at ERR; while busy it raises, which leaves the slot. -/
theorem cmdWriteIssuesOrIsDiscarded : Obligations.CmdWriteIssuesOrIsDiscarded := by
  intro s addr v rest hbus hat
  have hidle (h : s.busy = false) : step s = .next (writeCmd v { s with bus := rest }) := step_write_idle hbus hat h
  refine ⟨fun hb herr => ?_, fun hb herr => ?_, fun hb => ⟨_, step_write_busy hbus hat hb, ?_⟩⟩
  · rw [hidle hb, writeCmd, herr, if_neg Bool.false_ne_true]; rfl
  · rw [hidle hb, writeCmd, if_pos herr]
  · exact ⟨raise_pending _ _ _, (raise_busy _ _ _).trans hb⟩

/-- Settles O15: the write raises BUSY_WRITE, which an error already latched keeps out. -/
theorem writeWhileBusyOnlyLatches : Obligations.WriteWhileBusyOnlyLatches := by
  intro s addr v off rest hbus hat hbusy
  rw [step_write_busy hbus hat hbusy, raise]

/-- R85: a host read gives some value, and where the register's is specified, the register's. -/
theorem exists_hostRead_eq (off : Nat) (s : State) :
    ∃ w n, hostRead off s = { s with reads := w :: s.reads, draws := n } ∧
      (readsUnspecified (hostReg off) = false → w = readIdle (hostReg off) s) := by
  unfold hostRead
  split_ifs with h
  · obtain ⟨-, hfree⟩ := Bool.and_eq_true_iff.mp h
    exact ⟨_, _, rfl, fun hspec => absurd hfree (by simp [hspec])⟩
  · exact ⟨_, _, rfl, fun _ => rfl⟩

/-- Settles O16: at each of these offsets the register map gives a register whose value is specified while busy. -/
theorem readWhileBusy : Obligations.ReadWhileBusy := by
  intro s addr off rest hbus hat _
  obtain ⟨w, n, hread, hw⟩ := exists_hostRead_eq off { s with bus := rest }
  refine ⟨w, n, (step_read_at hbus hat.accessOffset).trans (congrArg _ hread), ?_, ?_, ?_, ?_, ?_, fun h => ?_⟩
  · rintro rfl; exact hw rfl
  · rintro rfl; exact hw rfl
  · rintro rfl; exact hw rfl
  · rintro rfl; exact hw rfl
  · rintro rfl; exact hw rfl
  · rcases h with rfl | h
    · exact hw rfl
    · rw [hostReg_reserved h] at hw
      exact hw rfl

end Sys2Proof.Machine
end

section
/-! The statements of 41_sponge.md: mix and the round as operations on four words of S at a time (R90, R91), the
bijectivity of the permutations (R92, R93), and the six sponge commands (R94 to R100). -/

namespace Sys2Proof.Machine

/-! ### mix (R90) -/

/-- Settles O33: the model's ROTR is the bit vector's rotation, and the source's example is computed. -/
theorem mixIsBlake2bG : Obligations.MixIsBlake2bG :=
  ⟨fun a b c d => by simp [mix, rotr_eq_rotateRight], by decide +kernel⟩

/-- R93: the reason that the all-zero state is a fixed point. -/
theorem mix_zero : mix 0 0 0 0 = (0, 0, 0, 0) := by decide +kernel

/-- Four words, as one mix call takes and returns them. -/
abbrev Quad := Word × Word × Word × Word

/-- R90: one of the two like halves of mix, with its two rotation amounts. -/
def halfMix (n m : Nat) (w : Quad) : Quad :=
  let a := w.1 + w.2.1
  let d := rotr (w.2.2.2 ^^^ a) n
  let c := w.2.2.1 + d
  let b := rotr (w.2.1 ^^^ c) m
  (a, b, c, d)

/-- A half of mix undone line by line, from the last to the first. -/
def halfUnmix (n m : Nat) (w : Quad) : Quad :=
  let b := rotr w.2.1 (64 - m) ^^^ w.2.2.1
  let c := w.2.2.1 - w.2.2.2
  let d := rotr w.2.2.2 (64 - n) ^^^ w.1
  let a := w.1 - b
  (a, b, c, d)

/-- R90 on the four words together. -/
def mixQuad (w : Quad) : Quad := mix w.1 w.2.1 w.2.2.1 w.2.2.2

theorem mixQuad_eq_comp : mixQuad = halfMix 16 63 ∘ halfMix 32 24 := rfl

/-- R13: a rotation by n is undone by the rotation by 64 - n. -/
theorem rotr_rotr_sub (x : Word) {n : Nat} (h0 : 0 < n) (hn : n < 64) : rotr (rotr x n) (64 - n) = x := by
  refine BitVec.eq_of_getLsbD_eq fun i hi => ?_
  rw [getLsbD_rotr _ (by omega) hi, getLsbD_rotr x hn (Nat.mod_lt _ (by decide))]
  congr 1
  omega

theorem rotr_sub_rotr (x : Word) {n : Nat} (h0 : 0 < n) (hn : n < 64) : rotr (rotr x (64 - n)) n = x := by
  have h := rotr_rotr_sub x (n := 64 - n) (by omega) (by omega)
  rwa [Nat.sub_sub_self hn.le] at h

/-- R90: each half of mix loses nothing: additions, exclusive ors and rotations can all be undone. -/
theorem halfMix_bijective {n m : Nat} (hn0 : 0 < n) (hn : n < 64) (hm0 : 0 < m) (hm : m < 64) :
    Function.Bijective (halfMix n m) := by
  refine Function.bijective_iff_has_inverse.mpr ⟨halfUnmix n m, fun w => ?_, fun w => ?_⟩
  · simp [halfMix, halfUnmix, rotr_rotr_sub, hn0, hn, hm0, hm]
  · simp [halfMix, halfUnmix, rotr_sub_rotr, hn0, hn, hm0, hm]

theorem mixQuad_bijective : Function.Bijective mixQuad :=
  mixQuad_eq_comp ▸ (halfMix_bijective (by decide) (by decide) (by decide) (by decide)).comp
    (halfMix_bijective (by decide) (by decide) (by decide) (by decide))

/-! ### Four words of the sponge state (R91) -/

/-- The four state indices of a call. -/
def groupIndices (g : MixGroup) : List (Fin 16) := [g.1, g.2.1, g.2.2.1, g.2.2.2]

/-- The words of S that a call reads. -/
def groupWords (S : Sponge) (g : MixGroup) : Quad := (S[g.1], S[g.2.1], S[g.2.2.1], S[g.2.2.2])

/-- S with a call's results written back. -/
def setGroup (S : Sponge) (g : MixGroup) (w : Quad) : Sponge :=
  (((S.set g.1 w.1).set g.2.1 w.2.1).set g.2.2.1 w.2.2.1).set g.2.2.2 w.2.2.2

/-- R91: read four words, compute, write four words back. -/
def overGroup (f : Quad → Quad) (g : MixGroup) (S : Sponge) : Sponge := setGroup S g (f (groupWords S g))

theorem mixAt_eq_overGroup (S : Sponge) (g : MixGroup) : mixAt S g = overGroup mixQuad g S := rfl

theorem mixAll_cons (S : Sponge) (g : MixGroup) (gs : List MixGroup) :
    mixAll S (g :: gs) = mixAll (overGroup mixQuad g S) gs := rfl

/-- Words that the call does not name are left. -/
theorem getElem_setGroup_of_notMem (S : Sponge) {g : MixGroup} (w : Quad) {x : Fin 16} (hx : x ∉ groupIndices g) :
    (setGroup S g w)[x] = S[x] := by
  simp only [groupIndices, List.mem_cons, List.not_mem_nil, or_false, not_or, Fin.ext_iff] at hx
  obtain ⟨hi, hj, hk, hl⟩ := hx
  simp [setGroup, Ne.symm hi, Ne.symm hj, Ne.symm hk, Ne.symm hl]

/-- Words that the call names are set whatever they were. -/
theorem getElem_setGroup_of_mem (S T : Sponge) {g : MixGroup} (w : Quad) {x : Fin 16} (hx : x ∈ groupIndices g) :
    (setGroup S g w)[x] = (setGroup T g w)[x] := by
  simp only [groupIndices, List.mem_cons, List.not_mem_nil, or_false] at hx
  rcases hx with rfl | rfl | rfl | rfl <;> simp [setGroup, Vector.getElem_set]

theorem sponge_ext {S T : Sponge} (h : ∀ x : Fin 16, S[x] = T[x]) : S = T :=
  Vector.ext fun i hi => h ⟨i, hi⟩

theorem setGroup_setGroup (S : Sponge) (g : MixGroup) (v w : Quad) :
    setGroup (setGroup S g v) g w = setGroup S g w := by
  refine sponge_ext fun x => ?_
  by_cases hx : x ∈ groupIndices g
  · exact getElem_setGroup_of_mem _ _ w hx
  · simp only [getElem_setGroup_of_notMem _ _ hx]

theorem setGroup_groupWords (S : Sponge) (g : MixGroup) : setGroup S g (groupWords S g) = S := by
  simp [setGroup, groupWords]

/-- The results of a call on four different indices are all there after the last is written. -/
theorem groupWords_setGroup (S : Sponge) {g : MixGroup} (w : Quad) (hg : (groupIndices g).Nodup) :
    groupWords (setGroup S g w) g = w := by
  simp only [groupIndices, List.nodup_cons, List.mem_cons, List.not_mem_nil, or_false, not_or, Fin.ext_iff] at hg
  obtain ⟨⟨hij, hik, hil⟩, ⟨hjk, hjl⟩, hkl, -⟩ := hg
  simp [setGroup, groupWords, Ne.symm hij, Ne.symm hik, Ne.symm hil, Ne.symm hjk, Ne.symm hjl, Ne.symm hkl]

/-- Calls on four different indices compose as their functions do. -/
theorem overGroup_overGroup (f f' : Quad → Quad) {g : MixGroup} (hg : (groupIndices g).Nodup) (S : Sponge) :
    overGroup f g (overGroup f' g S) = overGroup (f ∘ f') g S := by
  simp only [overGroup, groupWords_setGroup _ _ hg, setGroup_setGroup, Function.comp_apply]

theorem overGroup_id (g : MixGroup) (S : Sponge) : overGroup id g S = S := setGroup_groupWords S g

/-- The words that a call on other indices reads are left. -/
theorem groupWords_overGroup_of_disjoint (f : Quad → Quad) {g h : MixGroup}
    (hd : (groupIndices g).Disjoint (groupIndices h)) (S : Sponge) :
    groupWords (overGroup f g S) h = groupWords S h := by
  have hkeep (x : Fin 16) (hx : x ∈ groupIndices h) : (overGroup f g S)[x] = S[x] :=
    getElem_setGroup_of_notMem S _ fun hxg => hd hxg hx
  simp only [groupWords, hkeep h.1 (by simp [groupIndices]), hkeep h.2.1 (by simp [groupIndices]),
    hkeep h.2.2.1 (by simp [groupIndices]), hkeep h.2.2.2 (by simp [groupIndices])]

/-! ### The indices of a step (R91) -/

/-- R91: the calls of a step name no index twice, neither in one call nor in two. -/
def IndicesApart (gs : List MixGroup) : Prop := (gs.flatMap groupIndices).Nodup

theorem columnGroups_indicesApart : IndicesApart columnGroups := by unfold IndicesApart; decide

theorem diagonalGroups_indicesApart : IndicesApart diagonalGroups := by unfold IndicesApart; decide

theorem IndicesApart.nodup {gs : List MixGroup} (h : IndicesApart gs) {g : MixGroup} (hg : g ∈ gs) :
    (groupIndices g).Nodup :=
  (List.nodup_flatMap.mp h).1 g hg

theorem IndicesApart.disjoint {gs : List MixGroup} (ha : IndicesApart gs) {g h : MixGroup} (hg : g ∈ gs)
    (hh : h ∈ gs) (hne : g ≠ h) : (groupIndices g).Disjoint (groupIndices h) :=
  have : Std.Symm (Function.onFun List.Disjoint groupIndices) := ⟨fun _ _ hd => hd.symm⟩
  (List.nodup_flatMap.mp ha).2.forall hg hh hne

/-! ### The order of the calls of a step (R91) -/

theorem setGroup_comm (S : Sponge) {g h : MixGroup} (v w : Quad)
    (hd : (groupIndices g).Disjoint (groupIndices h)) :
    setGroup (setGroup S g v) h w = setGroup (setGroup S h w) g v := by
  refine sponge_ext fun x => ?_
  by_cases hx : x ∈ groupIndices g
  · rw [getElem_setGroup_of_notMem _ w (hd hx), getElem_setGroup_of_mem S (setGroup S h w) v hx]
  · rw [getElem_setGroup_of_notMem _ v hx]
    by_cases hx' : x ∈ groupIndices h
    · exact getElem_setGroup_of_mem _ _ w hx'
    · simp only [getElem_setGroup_of_notMem _ _ hx, getElem_setGroup_of_notMem _ _ hx']

/-- R91: calls on disjoint indices commute. -/
theorem overGroup_comm (f : Quad → Quad) {g h : MixGroup} (hd : (groupIndices g).Disjoint (groupIndices h))
    (S : Sponge) : overGroup f h (overGroup f g S) = overGroup f g (overGroup f h S) := by
  rw [overGroup, groupWords_overGroup_of_disjoint f hd, overGroup, setGroup_comm S _ _ hd]
  rw [overGroup, groupWords_overGroup_of_disjoint f hd.symm, overGroup]

/-- R91: calls whose indices lie apart may be made in any order. -/
theorem mixAll_perm {gs hs : List MixGroup} (hp : gs.Perm hs) (ha : IndicesApart hs) (S : Sponge) :
    mixAll S gs = mixAll S hs := by
  refine hp.foldl_eq' (fun g hg h hh T => ?_) S
  by_cases hgh : g = h
  · rw [hgh]
  · exact overGroup_comm mixQuad (ha.disjoint (hp.subset hg) (hp.subset hh) hgh) T

/-- Settles O35: the four calls of either step name sixteen different indices. -/
theorem stepCallsCommute : Obligations.StepCallsCommute := fun S _ =>
  ⟨fun hp => mixAll_perm hp columnGroups_indicesApart S, fun hp => mixAll_perm hp diagonalGroups_indicesApart S⟩

/-! ### The permutations are bijective (R92, R93) -/

/-- R91: a call on four different indices loses nothing where its function loses nothing. -/
theorem overGroup_bijective {f : Quad → Quad} (hf : Function.Bijective f) {g : MixGroup}
    (hg : (groupIndices g).Nodup) : Function.Bijective (overGroup f g) := by
  obtain ⟨f', hleft, hright⟩ := Function.bijective_iff_has_inverse.mp hf
  refine Function.bijective_iff_has_inverse.mpr ⟨overGroup f' g, fun S => ?_, fun S => ?_⟩
  · rw [overGroup_overGroup f' f hg, hleft.comp_eq_id, overGroup_id]
  · rw [overGroup_overGroup f f' hg, hright.comp_eq_id, overGroup_id]

theorem mixAll_bijective {gs : List MixGroup} (hgs : ∀ g ∈ gs, (groupIndices g).Nodup) :
    Function.Bijective (mixAll · gs) := by
  induction gs with
  | nil => exact Function.bijective_id
  | cons g gs ih =>
    obtain ⟨hg, hrest⟩ := List.forall_mem_cons.mp hgs
    exact (ih hrest).comp (overGroup_bijective mixQuad_bijective hg)

/-- R91: the round is the diagonal step on the column step's results. -/
theorem spongeRound_eq_comp : spongeRound = (mixAll · diagonalGroups) ∘ (mixAll · columnGroups) := by
  funext S
  rw [Function.comp_apply, spongeRound]

theorem spongeRound_bijective : Function.Bijective spongeRound := by
  rw [spongeRound_eq_comp]
  exact (mixAll_bijective fun _ => diagonalGroups_indicesApart.nodup).comp
    (mixAll_bijective fun _ => columnGroups_indicesApart.nodup)

/-- R92: the full permutation is the round iterated 12 times. -/
theorem fullPermutation_eq_iterate : fullPermutation = spongeRound^[12] := funext (rounds_eq_iterate 12)

/-- Settles O36: the two permutations are the round iterated 12 times and once. -/
theorem permutationsAreBijective : Obligations.PermutationsAreBijective :=
  ⟨spongeRound_bijective, fullPermutation_eq_iterate ▸ spongeRound_bijective.iterate 12,
    funext reducedPermutation_eq ▸ spongeRound_bijective⟩

/-! ### One round, word by word (R91) -/

/-- R91: calls on other indices leave the words that a call reads. -/
theorem groupWords_mixAll_of_disjoint {gs : List MixGroup} {g : MixGroup}
    (hd : ∀ h ∈ gs, (groupIndices h).Disjoint (groupIndices g)) (S : Sponge) :
    groupWords (mixAll S gs) g = groupWords S g := by
  induction gs generalizing S with
  | nil => rfl
  | cons h gs ih =>
    obtain ⟨hh, hrest⟩ := List.forall_mem_cons.mp hd
    rw [mixAll_cons, ih hrest, groupWords_overGroup_of_disjoint mixQuad hh]

theorem indicesApart_cons {h : MixGroup} {gs : List MixGroup} : IndicesApart (h :: gs) ↔
    (groupIndices h).Nodup ∧ (∀ g ∈ gs, (groupIndices h).Disjoint (groupIndices g)) ∧ IndicesApart gs := by
  simp only [IndicesApart, List.nodup_flatMap, List.forall_mem_cons, List.pairwise_cons, Function.onFun]
  tauto

/-- R91: each call of a step gives the mix of the words as they were before the step. -/
theorem groupWords_mixAll {gs : List MixGroup} (ha : IndicesApart gs) {g : MixGroup} (hg : g ∈ gs) (S : Sponge) :
    groupWords (mixAll S gs) g = mixQuad (groupWords S g) := by
  induction gs generalizing S with
  | nil => cases hg
  | cons h gs ih =>
    obtain ⟨hnodup, hd, hrest⟩ := indicesApart_cons.mp ha
    obtain rfl | hg := List.mem_cons.mp hg
    · rw [mixAll_cons, groupWords_mixAll_of_disjoint fun h hh => (hd h hh).symm, overGroup,
        groupWords_setGroup S _ hnodup]
    · rw [mixAll_cons, ih hrest hg, groupWords_overGroup_of_disjoint mixQuad (hd g hg)]

/-- The sixteen words by the columns that they stand in. -/
theorem sponge_eq_of_columns {S : Sponge} {a b c d : Quad} (ha : groupWords S (0, 4, 8, 12) = a)
    (hb : groupWords S (1, 5, 9, 13) = b) (hc : groupWords S (2, 6, 10, 14) = c)
    (hd : groupWords S (3, 7, 11, 15) = d) :
    S = #v[a.1, b.1, c.1, d.1, a.2.1, b.2.1, c.2.1, d.2.1,
      a.2.2.1, b.2.2.1, c.2.2.1, d.2.2.1, a.2.2.2, b.2.2.2, c.2.2.2, d.2.2.2] := by
  subst ha hb hc hd
  exact Vector.ext fun i hi => by interval_cases i <;> rfl

/-- The sixteen words by the diagonals that they stand in. -/
theorem sponge_eq_of_diagonals {S : Sponge} {a b c d : Quad} (ha : groupWords S (0, 5, 10, 15) = a)
    (hb : groupWords S (1, 6, 11, 12) = b) (hc : groupWords S (2, 7, 8, 13) = c)
    (hd : groupWords S (3, 4, 9, 14) = d) :
    S = #v[a.1, b.1, c.1, d.1, d.2.1, a.2.1, b.2.1, c.2.1,
      c.2.2.1, d.2.2.1, a.2.2.1, b.2.2.1, b.2.2.2, c.2.2.2, d.2.2.2, a.2.2.2] := by
  subst ha hb hc hd
  exact Vector.ext fun i hi => by interval_cases i <;> rfl

/-- Settles O34: a state is known from its columns, and from its diagonals, and each call of a step leaves the mix of
one of them. -/
theorem roundIsColumnThenDiagonalStep : Obligations.RoundIsColumnThenDiagonalStep := by
  intro S a b c d a' b' c' d' ha hb hc hd ha' hb' hc' hd'
  have hcol {g : MixGroup} (hg : g ∈ columnGroups) := groupWords_mixAll columnGroups_indicesApart hg S
  have hmid := sponge_eq_of_columns ((hcol (by decide)).trans ha) ((hcol (by decide)).trans hb)
    ((hcol (by decide)).trans hc) ((hcol (by decide)).trans hd)
  have hdiag {g : MixGroup} (hg : g ∈ diagonalGroups) := groupWords_mixAll diagonalGroups_indicesApart hg
    (mixAll S columnGroups)
  rw [hmid] at hdiag
  rw [spongeRound, hmid]
  exact sponge_eq_of_diagonals ((hdiag (by decide)).trans ha') ((hdiag (by decide)).trans hb')
    ((hdiag (by decide)).trans hc') ((hdiag (by decide)).trans hd')

/-! ### The sponge commands (R94 to R100) -/

/-- R93: a call on zero words leaves them zero. -/
theorem mixAt_zero (g : MixGroup) : mixAt (Vector.replicate 16 0) g = Vector.replicate 16 0 := by
  have hwords : groupWords (Vector.replicate 16 0) g = (0, 0, 0, 0) := by simp [groupWords]
  have hmix : mixQuad (groupWords (Vector.replicate 16 0) g) = groupWords (Vector.replicate 16 0) g := by
    rw [hwords]
    exact mix_zero
  rw [mixAt_eq_overGroup, overGroup, hmix, setGroup_groupWords]

/-- R93: the all-zero state is a fixed point of the round. -/
theorem spongeRound_zero : spongeRound (Vector.replicate 16 0) = Vector.replicate 16 0 := by
  have hstep (gs : List MixGroup) : mixAll (Vector.replicate 16 0) gs = Vector.replicate 16 0 :=
    List.foldl_fixed' mixAt_zero gs
  rw [spongeRound, hstep, hstep]

/-- R93: an all-zero S is kept by any number of rounds. -/
theorem iterate_spongeRound_of_zero {S : Sponge} (h : ∀ i : Fin 16, S[i] = 0) (n : Nat) : spongeRound^[n] S = S := by
  obtain rfl : S = Vector.replicate 16 0 := sponge_ext fun i => by simpa using h i
  exact Function.iterate_fixed spongeRound_zero n

/-- R96: what PERM_FULL leaves. -/
theorem exec_permFull (s : State) : exec .permFull s = .next (s.withS (spongeRound^[12] s.S)) := by
  rw [← rounds_eq_iterate]; rfl

/-- R98: what ABSORB leaves. -/
theorem exec_absorb (s : State) : exec .absorb s = .next (s.withS (spongeRound^[12] (xorRate s.S s.D))) := by
  rw [← rounds_eq_iterate]; rfl

/-- R99: what ABSORB_SAFE leaves. -/
theorem exec_absorbSafe (s : State) :
    exec .absorbSafe s = .next (s.withS (spongeRound^[12] (xorSafeRate s.S s.D))) := by
  rw [← rounds_eq_iterate]; rfl

/-- R100: what SQUEEZE leaves. -/
theorem exec_squeeze (s : State) :
    exec .squeeze s = .next ((s.withD (rate s.S)).withS (spongeRound^[12] s.S)) := by
  rw [← rounds_eq_iterate]; rfl

/-- R98: absorbing a zero block leaves S. -/
theorem xorRate_of_zero {S : Sponge} {X : Block} (h : ∀ j : Fin 12, X[j] = 0) : xorRate S X = S := by
  refine Vector.ext fun j hj => ?_
  obtain hlt | hge := Nat.lt_or_ge j 12
  · rw [getElem_xorRate_lt S X j hlt, show X[j] = 0 from h ⟨j, hlt⟩]
    exact BitVec.xor_zero
  · exact getElem_xorRate_ge S X j hj hge

/-- R99: words 8 to 11 of the block are not read. -/
theorem xorSafeRate_congr (S : Sponge) {X Y : Block} (h : ∀ j, (hj : j < 8) → X[j] = Y[j]) :
    xorSafeRate S X = xorSafeRate S Y := by
  refine Vector.ext fun j hj => ?_
  obtain hlt | hge := Nat.lt_or_ge j 8
  · rw [getElem_xorSafeRate_lt S X j hlt, getElem_xorSafeRate_lt S Y j hlt, h j hlt]
  · rw [getElem_xorSafeRate_ge S X j hj hge, getElem_xorSafeRate_ge S Y j hj hge]

/-- R99: absorbing a block that is zero in words 0 to 7 leaves S. -/
theorem xorSafeRate_of_zero {S : Sponge} {X : Block} (h : ∀ j, (hj : j < 8) → X[j] = 0) : xorSafeRate S X = S := by
  refine Vector.ext fun j hj => ?_
  obtain hlt | hge := Nat.lt_or_ge j 8
  · rw [getElem_xorSafeRate_lt S X j hlt, h j hlt]
    exact BitVec.xor_zero
  · exact getElem_xorSafeRate_ge S X j hj hge

/-- Settles O38: the INIT state does not depend on the state before. -/
theorem initSetsInitState : Obligations.InitSetsInitState :=
  ⟨by decide, fun s => ⟨s.withS initSponge, rfl, rfl,
    fun i h => ⟨getElem_initSponge_lt i h, getElem_initSponge_ge i h⟩, rfl⟩⟩

/-- Settles O39 (the values are PRESUMED, log 7): the high half of the INIT state is the IV. -/
theorem ivIsBlake2bIv : Obligations.IvIsBlake2bIv := by
  intro s t h
  obtain rfl : s.withS initSponge = t := Host.Outcome.next.inj h
  have hiv (i : Nat) (hi : i < 8) : (s.withS initSponge).S[8 + i] = iv[i] := getElem_initSponge_ge i hi
  exact ⟨hiv 0 (by decide), hiv 1 (by decide), hiv 2 (by decide), hiv 3 (by decide),
    hiv 4 (by decide), hiv 5 (by decide), hiv 6 (by decide), hiv 7 (by decide)⟩

/-- Settles O40: twelve rounds of S, which keep an all-zero S. -/
theorem permFullAppliesTwelveRounds : Obligations.PermFullAppliesTwelveRounds :=
  ⟨by decide, fun s => ⟨_, exec_permFull s, rfl, rfl, fun h => by
    rw [iterate_spongeRound_of_zero h, State.withS_self]⟩⟩

/-- Settles O41: one round of S, which keeps an all-zero S. -/
theorem permRedAppliesOneRound : Obligations.PermRedAppliesOneRound :=
  ⟨by decide, fun s => ⟨s.withS (spongeRound s.S), rfl, rfl, rfl, fun h => by
    rw [show spongeRound s.S = s.S from iterate_spongeRound_of_zero h 1, State.withS_self]⟩⟩

/-- Settles O42: X is S with D XORed into the rate. -/
theorem absorbXorsRateThenPermutes : Obligations.AbsorbXorsRateThenPermutes := by
  refine ⟨by decide, fun s => ⟨_, xorRate s.S s.D, exec_absorb s, rfl, fun j h => getElem_xorRate_lt s.S s.D j h,
    fun j hj h => getElem_xorRate_ge s.S s.D j h hj, rfl, fun hzero => ?_, fun heq j h => ?_⟩⟩
  · rw [exec_permFull, xorRate_of_zero hzero]
  · rw [getElem_xorRate_lt s.S s.D j h, heq j h]
    exact BitVec.xor_self

/-- Settles O43: X is S with D[0..7] XORed into words 0 to 7, and that reads no other word of D. -/
theorem absorbSafeXorsSafeRateThenPermutes : Obligations.AbsorbSafeXorsSafeRateThenPermutes := by
  refine ⟨by decide, fun s => ⟨_, xorSafeRate s.S s.D, exec_absorbSafe s, rfl,
    fun j h => getElem_xorSafeRate_lt s.S s.D j h, fun j hj h => getElem_xorSafeRate_ge s.S s.D j h hj, rfl,
    fun E hE => ⟨_, exec_absorbSafe { s with D := E }, ?_⟩, fun hzero => ?_⟩⟩
  · exact congrArg spongeRound^[12] (xorSafeRate_congr s.S hE)
  · rw [exec_permFull, xorSafeRate_of_zero hzero]

/-- Settles O44: D takes the rate of the state before the twelve rounds. -/
theorem squeezeCopiesRateThenPermutes : Obligations.SqueezeCopiesRateThenPermutes :=
  ⟨by decide, fun s => ⟨_, exec_squeeze s, rfl, fun j h => getElem_rate s.S j h, rfl⟩⟩

end Sys2Proof.Machine
end

section
/-! The statements of 42_matrix_port.md: what BLK_READ and BLK_WRITE answer once their checks pass (R111, R112). -/

namespace Sys2Proof.Machine

/-- R111: BLK_READ with its checks passed, of a cell that can be read. -/
theorem exec_blkRead {s : State} {row col : Index} {X : Block} (hcfg : cfgValid s = true)
    (hrow : row.toNat < s.nrows.toNat) (hcol : col.toNat < s.ncols.toNat)
    (hX : readCell s row.toNat col.toNat = .ok X) : exec (.blkRead row col) s = .next (s.withD X) := by
  rw [exec, execBlkRead, matrixCommand_passes _ _ _ _ _ hcfg (by simpa using hrow) (by simpa using hcol),
    withCell_of_ok hX, performed]

/-- R112: BLK_WRITE with its checks passed; it reads no cell. -/
theorem exec_blkWrite {s : State} {row col : Index} (hcfg : cfgValid s = true)
    (hrow : row.toNat < s.nrows.toNat) (hcol : col.toNat < s.ncols.toNat) :
    exec (.blkWrite row col) s = .next (writeCell s row.toNat col.toNat s.D) := by
  rw [exec, execBlkWrite, matrixCommand_passes _ _ _ _ _ hcfg (by simpa using hrow) (by simpa using hcol), performed]

/-- A cell write changes no word outside its cell. -/
theorem sameOutside_writeCell (s : State) (r c : Nat) (X : Block) :
    SameOutside s (writeCell s r c X) (inCell s r c) := by
  intro a ha
  rw [inCell, not_and_or, not_le, not_lt] at ha
  exact lookup_writeCell_other s r c X a ha

/-- Settles O46: a written cell has a block to read, and D takes its words. -/
theorem blkReadCopiesCellToD : Obligations.BlkReadCopiesCellToD := by
  intro s row col hcfg hrow hcol hwritten
  obtain ⟨X, hX⟩ := cellWritten_iff.mp hwritten
  exact ⟨s.withD X, exec_blkRead hcfg hrow hcol hX, rfl, (readCell_ok_iff s _ _ X).mp hX⟩

/-- Settles O47: the command is a cell write of D. -/
theorem blkWriteCopiesDToCell : Obligations.BlkWriteCopiesDToCell := by
  intro s row col hcfg hrow hcol
  exact ⟨_, exec_blkWrite hcfg hrow hcol, rfl, readWord_writeCell_same s _ _ s.D, sameOutside_writeCell s _ _ s.D⟩

/-- Settles O48: changing S and D leaves the cell just written readable, under the configuration it was written
under. -/
theorem blkWriteThenReadGivesBack : Obligations.BlkWriteThenReadGivesBack := by
  intro s t row col S D hcfg hrow hcol hwrite
  rw [exec_blkWrite hcfg hrow hcol, Host.Outcome.next.injEq] at hwrite
  subst hwrite
  have hread : readCell (((writeCell s row.toNat col.toNat s.D).withS S).withD D) row.toNat col.toNat = .ok s.D := by
    simp
  exact ⟨_, exec_blkRead hcfg hrow hcol hread, rfl⟩

end Sys2Proof.Machine
end

section
/-! The statements of 43_duplex.md: what the four duplex primitives do column by column (R121 to R124), what they do
not write (R122, R126), and DUPLEX_WANDER on coinciding rows (R125). -/

namespace Sys2Proof.Machine

/-! ### A matrix command whose checks pass -/

/-- R188: a matrix command without a column operand, its checks passed, answers what its performance completes in. -/
theorem matrixCommand_next_iff {i : Instr} {rows : List Index} {f : State → Except Fault State} {s t : State}
    (hcfg : cfgValid s = true) (hrow : ∀ r ∈ rows, r.toNat < s.nrows.toNat) :
    matrixCommand i rows [] f s = .next t ↔ f s = .ok t := by
  rw [matrixCommand_passes i rows [] f s hcfg hrow (by simp), performed_next_iff]

/-- R121: SEED_ROW0 with its checks passed. -/
theorem exec_seedRow0_next_iff {s t : State} {rowOut : Index} (hcfg : cfgValid s = true)
    (hout : rowOut.toNat < s.nrows.toNat) : exec (.seedRow0 rowOut) s = .next t ↔
      forColumns (seedColumn rowOut.toNat s.ncols.toNat) s.ncols.toNat s = .ok t := by
  rw [exec, execSeedRow0]
  exact matrixCommand_next_iff hcfg (by simpa using hout)

/-- R122: DUPLEX_ROW1 with its checks passed. -/
theorem exec_duplexRow1_next_iff {s t : State} {rowIn rowOut : Index} (hcfg : cfgValid s = true)
    (hin : rowIn.toNat < s.nrows.toNat) (hout : rowOut.toNat < s.nrows.toNat) :
    exec (.duplexRow1 rowIn rowOut) s = .next t ↔
      forColumns (row1Column rowIn.toNat rowOut.toNat s.ncols.toNat) s.ncols.toNat s = .ok t := by
  rw [exec, execDuplexRow1]
  exact matrixCommand_next_iff hcfg (by simp [hin, hout])

/-- R123: DUPLEX_SETUP with its checks passed. -/
theorem exec_duplexSetup_next_iff {s t : State} {rowIn rowInOut rowOut : Index} (hcfg : cfgValid s = true)
    (hin : rowIn.toNat < s.nrows.toNat) (hio : rowInOut.toNat < s.nrows.toNat) (hout : rowOut.toNat < s.nrows.toNat) :
    exec (.duplexSetup rowIn rowInOut rowOut) s = .next t ↔
      forColumns (setupColumn rowIn.toNat rowInOut.toNat rowOut.toNat s.ncols.toNat) s.ncols.toNat s = .ok t := by
  rw [exec, execDuplexSetup]
  exact matrixCommand_next_iff hcfg (by simp [hin, hio, hout])

/-- R124: DUPLEX_WANDER with its checks passed. -/
theorem exec_duplexWander_next_iff {s t : State} {rowIn rowInOut rowOut : Index} (hcfg : cfgValid s = true)
    (hin : rowIn.toNat < s.nrows.toNat) (hio : rowInOut.toNat < s.nrows.toNat) (hout : rowOut.toNat < s.nrows.toNat) :
    exec (.duplexWander rowIn rowInOut rowOut) s = .next t ↔
      forColumns (wanderColumn rowIn.toNat rowInOut.toNat rowOut.toNat) s.ncols.toNat s = .ok t := by
  rw [exec, execDuplexWander]
  exact matrixCommand_next_iff hcfg (by simp [hin, hio, hout])

/-! ### SEED_ROW0 (R121) -/

/-- R121: after c columns S has taken c rounds, and each of the last c cells of row `o` holds the rate of the state
before the round of its column. -/
structure SeededColumns (o : Nat) (s : State) (c : Nat) (u : State) : Prop where
  ncols : u.ncols = s.ncols
  sponge : u.S = spongeRound^[c] s.S
  cells : ∀ c', c' < c → readCell u o (s.ncols.toNat - 1 - c') = .ok (rate (spongeRound^[c'] s.S))

theorem SeededColumns.start (o : Nat) (s : State) : SeededColumns o s 0 s :=
  ⟨rfl, rfl, fun c' hc' => absurd hc' (Nat.not_lt_zero c')⟩

/-- R121: column c is written beside the columns before it. -/
theorem SeededColumns.next {o c : Nat} {s u v : State} (h : SeededColumns o s c u) (hc : c < s.ncols.toNat)
    (hv : seedColumn o s.ncols.toNat c u = .ok v) : SeededColumns o s (c + 1) v := by
  rw [seedColumn_eq, Except.ok.injEq] at hv
  subst hv
  refine ⟨?_, ?_, fun c' hc' => ?_⟩
  · rw [State.withS_ncols, writeCell_ncols, h.ncols]
  · rw [State.withS_S, reducedPermutation_eq, h.sponge, Function.iterate_succ_apply']
  · rw [readCell_withS]
    obtain hlt | rfl := Nat.lt_succ_iff_lt_or_eq.mp hc'
    · rw [readCell_writeCell_other u _ (by rw [h.ncols]; omega) (by rw [h.ncols]; omega) (.inr (by omega)),
        h.cells c' hlt]
    · rw [readCell_writeCell_same, h.sponge]

/-- Settles O52: SEED_ROW0 reads no cell, so it completes, and each column keeps the cells of those before it. -/
theorem seedRow0WritesRowDescending : Obligations.SeedRow0WritesRowDescending := by
  intro s rowOut hcfg hout
  obtain ⟨t, ht⟩ := seedRow0_completes rowOut.toNat s.ncols.toNat s
  have hframe := seedRow0_frame ht
  have hseeded := forColumns_induct (SeededColumns rowOut.toNat s) (SeededColumns.start _ s)
    (fun _ _ _ hc hu hv => hu.next hc hv) ht
  exact ⟨t, (exec_seedRow0_next_iff hcfg hout).mpr ht, hframe.control, hseeded.sponge, hseeded.cells,
    fun a ha => hframe.outside a (by simpa using ha)⟩

/-! ### The primitives column by column (R122 to R124) -/

/-- R15: a cell write sets its cell and nothing else. -/
theorem cellSet_writeCell (s : State) (r c : Nat) (X : Block) : CellSet s (writeCell s r c X) r c X :=
  ⟨readCell_writeCell_same s r c X, sameOutside_writeCell s r c X, rfl⟩

/-- R120: a loop that completes runs through its columns, each described by what its body does. -/
theorem ColumnRun.of_forColumns {body : Nat → State → Except Fault State} {column : Nat → State → State → Prop}
    {n : Nat} {s t : State} (h : forColumns body n s = .ok t)
    (hbody : ∀ c u v, body c u = .ok v → column c u v) : ColumnRun column n s t := by
  obtain ⟨st, h0, hn, hst⟩ := forColumns_states h
  exact ⟨st, h0, hn, fun c hc => hbody c _ _ (hst c hc)⟩

/-- Settles O53: what rowIn must hold is what the loop needs to complete. -/
theorem duplexRow1RunsItsColumns : Obligations.DuplexRow1RunsItsColumns := by
  intro s rowIn rowOut hcfg hin hout hwritten
  obtain ⟨t, ht⟩ := (duplexRow1_completes_iff s _ _).mpr hwritten
  refine ⟨t, (exec_duplexRow1_next_iff hcfg hin hout).mpr ht, (duplexRow1_frame ht).control,
    .of_forColumns ht fun c u v hv => ?_⟩
  obtain ⟨X, hX, rfl⟩ := (row1Column_ok_iff _ _ _ _ _ _).mp hv
  exact ⟨X, _, hX, reducedPermutation_eq _, cellSet_writeCell (u.withS _) _ _ _⟩

/-- Settles O54: what rowIn and rowInOut must hold is what the loop needs to complete. -/
theorem duplexSetupRunsItsColumns : Obligations.DuplexSetupRunsItsColumns := by
  intro s rowIn rowInOut rowOut hcfg hin hio hout hwritten hwritten'
  obtain ⟨t, ht⟩ := (duplexSetup_completes_iff s _ _ _).mpr ⟨hwritten, hwritten'⟩
  refine ⟨t, (exec_duplexSetup_next_iff hcfg hin hio hout).mpr ht, (duplexSetup_frame ht).control,
    .of_forColumns ht fun c u v hv => ?_⟩
  obtain ⟨X, Y, S, Z, hX, hY, hS, hZ, rfl⟩ := (setupColumn_ok_iff _ _ _ _ _ _ _).mp hv
  exact ⟨X, Y, Z, S, _, hX, hY, hS.trans (reducedPermutation_eq _), cellSet_writeCell (u.withS S) _ _ _, hZ,
    cellSet_writeCell _ _ _ _⟩

/-- Settles O55: what the three rows must hold is what the loop needs to complete. -/
theorem duplexWanderRunsItsColumns : Obligations.DuplexWanderRunsItsColumns := by
  intro s rowIn rowInOut rowOut hcfg hin hio hout hrowIn hrowInOut hrowOut
  obtain ⟨t, ht⟩ := (duplexWander_completes_iff s _ _ _).mpr ⟨hrowIn, hrowInOut, hrowOut⟩
  refine ⟨t, (exec_duplexWander_next_iff hcfg hin hio hout).mpr ht, (duplexWander_frame ht).control,
    .of_forColumns ht fun c u v hv => ?_⟩
  obtain ⟨X, Y, S, W, Z, hX, hY, hS, hW, hZ, rfl⟩ := (wanderColumn_ok_iff _ _ _ _ _ _).mp hv
  exact ⟨X, Y, W, Z, S, _, hX, hY, hS.trans (reducedPermutation_eq _), hW, cellSet_writeCell (u.withS S) _ _ _, hZ,
    cellSet_writeCell _ _ _ _⟩

/-! ### No feedback into rowIn (R126) -/

/-- Settles O57: each primitive writes within the rows of R44, and two different rows share no word. -/
theorem noFeedbackIntoRowIn : Obligations.NoFeedbackIntoRowIn := by
  intro s t rowIn rowInOut rowOut
  have hframe {i : Instr} (h : exec i s = .next t) : SameOutside s t (writesTo s i) :=
    (commandsChangeOnlyWhatTheyWrite i s t h).1
  refine ⟨fun hout h a ha => ?_, fun h => hframe h⟩
  have houtside : ¬ inRow s rowOut.toNat a := inRow_disjoint (BitVec.toNat_ne_iff_ne.mpr hout) ha
  rcases h with h | ⟨hio, h⟩
  · exact hframe h a houtside
  · have hnot : ¬ (inRow s rowOut.toNat a ∨ inRow s rowInOut.toNat a) :=
      not_or.mpr ⟨houtside, inRow_disjoint (BitVec.toNat_ne_iff_ne.mpr hio) ha⟩
    rcases h with h | h
    · exact hframe h a hnot
    · exact hframe h a hnot

/-! ### DUPLEX_ROW1 overwrites afresh (R122) -/

/-- A loop completes from a second state as it does from a first, when each column carries their relation on. -/
theorem forColumns_simulates {body : Nat → State → Except Fault State} {n : Nat} {s s' t : State}
    (R : Nat → State → State → Prop) (h0 : R 0 s s')
    (hstep : ∀ c u u' v, c < n → R c u u' → body c u = .ok v → ∃ v', body c u' = .ok v' ∧ R (c + 1) v v')
    (h : forColumns body n s = .ok t) : ∃ t', forColumns body n s' = .ok t' ∧ R n t t' := by
  obtain ⟨st, rfl, rfl, hst⟩ := forColumns_states h
  exact forColumns_completes (fun c => R c (st c)) h0 fun c u' hc hu => hstep c _ u' _ hc hu (hst c hc)

/-- R122: two states, after c columns of a command that writes row `o` from column n - 1 down, that have the same S and
can differ only in the cells of that row that are still to be written. -/
structure AlikeButUnwritten (o n c : Nat) (u u' : State) : Prop where
  ncols : u.ncols.toNat = n
  ncols' : u'.ncols.toNat = n
  sponge : u'.S = u.S
  cells : ∀ r c', c' < n → r ≠ o ∨ n - c ≤ c' → readCell u' r c' = readCell u r c'

/-- A change confined to row `o` leaves the cells of every other row. -/
theorem AlikeButUnwritten.start {s : State} {m : Memory} {o : Nat}
    (h : SameOutside s { s with matrix := m } (inRow s o)) :
    AlikeButUnwritten o s.ncols.toNat 0 s { s with matrix := m } := by
  refine ⟨rfl, rfl, rfl, fun r c hc hr => ?_⟩
  refine memRead_congr fun j hj => readWord_congr rfl rfl (h _ ?_)
  have hcell : inRow s r (cellAddr s r c + j) := ⟨c, hc, by unfold inCell; omega⟩
  exact inRow_disjoint (by omega) hcell

/-- The same write in both states settles the cell whose turn it is. -/
theorem AlikeButUnwritten.write {o n c : Nat} {u u' : State} (h : AlikeButUnwritten o n c u u') (hc : c < n)
    (S : Sponge) (X : Block) :
    AlikeButUnwritten o n (c + 1) (writeCell (u.withS S) o (n - 1 - c) X) (writeCell (u'.withS S) o (n - 1 - c) X) := by
  have hn : (u.withS S).ncols.toNat = n := h.ncols
  have hn' : (u'.withS S).ncols.toNat = n := h.ncols'
  refine ⟨hn, hn', rfl, fun r c' hc' hrc => ?_⟩
  by_cases hcell : r = o ∧ c' = n - 1 - c
  · obtain ⟨rfl, rfl⟩ := hcell
    rw [readCell_writeCell_same, readCell_writeCell_same]
  · have hother : r ≠ o ∨ c' ≠ n - 1 - c := not_and_or.mp hcell
    rw [readCell_writeCell_other _ X (by omega) (by omega) hother,
      readCell_writeCell_other _ X (by omega) (by omega) hother, readCell_withS, readCell_withS]
    exact h.cells r c' hc' (by omega)

/-- The next column reads the same block in both states, and so writes the same. -/
theorem AlikeButUnwritten.next {i o n c : Nat} {u u' v : State} (h : AlikeButUnwritten o n c u u') (hio : i ≠ o)
    (hc : c < n) (hv : row1Column i o n c u = .ok v) :
    ∃ v', row1Column i o n c u' = .ok v' ∧ AlikeButUnwritten o n (c + 1) v v' := by
  obtain ⟨X, hX, rfl⟩ := (row1Column_ok_iff _ _ _ _ _ _).mp hv
  have hX' : readCell u' i c = .ok X := (h.cells i c hc (.inl hio)).trans hX
  exact ⟨_, (row1Column_ok_iff _ _ _ _ _ _).mpr ⟨X, hX', rfl⟩, h.sponge ▸ h.write hc _ _⟩

/-- Settles O58: the two runs go alike, and after the last column every cell of rowOut has been written. -/
theorem duplexRow1OverwritesFresh : Obligations.DuplexRow1OverwritesFresh := by
  intro s s' t rowIn rowOut hne hs' houtside hcfg hin hout h
  obtain ⟨m, rfl⟩ : ∃ m, s' = { s with matrix := m } := ⟨_, hs'⟩
  rw [exec_duplexRow1_next_iff hcfg hin hout] at h
  obtain ⟨t', ht', halike⟩ := forColumns_simulates (AlikeButUnwritten rowOut.toNat s.ncols.toNat)
    (.start houtside) (fun _ _ _ _ hc hu hv => hu.next (BitVec.toNat_ne_iff_ne.mpr hne) hc hv) h
  exact ⟨t', (exec_duplexRow1_next_iff (s := { s with matrix := m }) hcfg hin hout).mpr ht', halike.sponge,
    fun c hc => halike.cells _ c hc (.inr (by omega))⟩

/-! ### DUPLEX_WANDER on coinciding rows (R124, R125) -/

/-- R124: one column of DUPLEX_WANDER keeps NCOLS and the cells of every other column. -/
theorem wanderColumn_keeps {i io o c : Nat} {u v : State} (h : wanderColumn i io o c u = .ok v)
    (hc : c < u.ncols.toNat) : v.ncols = u.ncols ∧
      ∀ r c', c' < u.ncols.toNat → c' ≠ c → readCell v r c' = readCell u r c' := by
  obtain ⟨X, Y, S, W, Z, -, -, -, -, -, rfl⟩ := (wanderColumn_ok_iff _ _ _ _ _ _).mp h
  refine ⟨rfl, fun r c' hc' hne => ?_⟩
  rw [readCell_writeCell_other (writeCell (u.withS S) _ _ _) _ hc hc' (.inr hne),
    readCell_writeCell_other (u.withS S) _ hc hc' (.inr hne), readCell_withS]

/-- R125: one column of DUPLEX_WANDER with rowInOut = rowOut: the second read of rowInOut gives the block
just written. -/
theorem wanderColumn_coinciding {i r c : Nat} {u v : State} (h : wanderColumn i r r c u = .ok v) :
    ∃ X W, readCell u i c = .ok X ∧ readCell u r c = .ok W ∧ v.S = spongeRound (xorRate u.S (blockAdd X W)) ∧
      readCell v r c = .ok (blockXor (blockXor W (rate v.S)) (rotW (rate v.S))) := by
  obtain ⟨X, Y, S, W, Z, hX, hY, hS, hW, hZ, rfl⟩ := (wanderColumn_ok_iff _ _ _ _ _ _).mp h
  obtain rfl : Y = W := Except.ok.inj (hY.symm.trans hW)
  rw [readCell_writeCell_same, Except.ok.injEq] at hZ
  subst hZ
  refine ⟨X, Y, hX, hY, hS.trans (reducedPermutation_eq _), ?_⟩
  rw [readCell_writeCell_same, writeCell_S, writeCell_S, State.withS_S]

/-- R124: the cells of a column are as before until its own turn, and stay as they are after it. -/
theorem wanderStates_keep {i io o : Nat} {st : Nat → State} {n : Nat} (hn : n = (st 0).ncols.toNat)
    (hst : ∀ c, c < n → wanderColumn i io o c (st c) = .ok (st (c + 1))) {a b : Nat} (hab : a ≤ b) (hb : b ≤ n)
    (r : Nat) {c : Nat} (hc : c < n) (hturn : c < a ∨ b ≤ c) : readCell (st b) r c = readCell (st a) r c := by
  have hncols : ∀ d, d ≤ n → (st d).ncols.toNat = n := by
    intro d
    induction d with
    | zero => exact fun _ => hn.symm
    | succ d ih =>
      intro hd
      have hu := ih (by omega)
      rw [(wanderColumn_keeps (hst d hd) (by omega)).1, hu]
  induction b, hab using Nat.le_induction with
  | base => rfl
  | succ b hab ih =>
    have hu := hncols b (by omega)
    rw [(wanderColumn_keeps (hst b hb) (by omega)).2 r c (by omega) (by omega), ih (by omega) (by omega)]

/-- Settles O59: T is S between the columns; each column reads its cells as they were before the command, and leaves its
own as it is after it. -/
theorem wanderOnCoincidingRows : Obligations.WanderOnCoincidingRows := by
  intro s t rowIn row hcfg hin hrow h
  rw [exec_duplexWander_next_iff hcfg hin hrow hrow] at h
  obtain ⟨st, rfl, rfl, hst⟩ := forColumns_states h
  refine ⟨fun c => (st c).S, rfl, rfl, fun c hc => ?_⟩
  have hbefore (r : Nat) := wanderStates_keep rfl hst (Nat.zero_le c) hc.le r hc (.inr le_rfl)
  have hafter (r : Nat) := wanderStates_keep rfl hst (Nat.succ_le_of_lt hc) le_rfl r hc (.inl (Nat.lt_succ_self c))
  obtain ⟨X, W, hX, hW, hS, hcell⟩ := wanderColumn_coinciding (hst c hc)
  exact ⟨X, W, (hbefore _).symm.trans hX, (hbefore _).symm.trans hW, hS, (hafter _).trans hcell⟩

end Sys2Proof.Machine
end

section
/-! The statement of 44_control.md: the one control command (R140). -/

namespace Sys2Proof.Machine

/-- Settles O37: NOP's meaning gives the state back as it is. -/
theorem nopHasNoEffect : Obligations.NopHasNoEffect :=
  ⟨by decide, fun _ => rfl⟩

end Sys2Proof.Machine
end

section
/-! The statements of 60_exceptions.md: the legal configurations (R26, R183), the errors of a matrix command in their
order (R183 to R185, R188), the first error that is kept (R186, R187), and the idle block (R199). -/

namespace Sys2Proof.Machine

/-! ### cfgValid() (R183) -/

/-- R183: the bit test on NROWS, nonzero and without a bit in common with its predecessor, says that NROWS is a power
of two. -/
theorem ne_zero_and_sub_one_iff_two_pow (x : Word) : x ≠ 0 ∧ x &&& (x - 1) = 0 ↔ x.toNat.isPowerOfTwo := by
  rw [← Nat.ne_zero_and_sub_one_eq_zero_iff_isPowerOfTwo, BitVec.toNat_ne]
  refine and_congr_right fun hx => ?_
  have hpred : (x - 1).toNat = x.toNat - 1 := BitVec.toNat_sub_of_le (Nat.one_le_iff_ne_zero.mpr hx)
  rw [BitVec.toNat_eq, BitVec.toNat_and, hpred]
  rfl

/-- R26: a power of two is at most 65536 exactly when its exponent is at most 16. -/
theorem isPowerOfTwo_and_le_65536_iff (n : Nat) : n.isPowerOfTwo ∧ n ≤ 65536 ↔ ∃ k, k ≤ 16 ∧ n = 2 ^ k := by
  have hle (k : Nat) : 2 ^ k ≤ 65536 ↔ k ≤ 16 := Nat.pow_le_pow_iff_right (a := 2) (m := 16) (by decide)
  constructor
  · rintro ⟨⟨k, rfl⟩, hk⟩
    exact ⟨k, (hle k).mp hk, rfl⟩
  · rintro ⟨k, hk, rfl⟩
    exact ⟨⟨k, rfl⟩, (hle k).mpr hk⟩

/-- Settles O25: the bit test says a power of two, and its bound bounds the exponent. -/
theorem cfgValidMeansLegalConfiguration : Obligations.CfgValidMeansLegalConfiguration := by
  intro s
  rw [← isPowerOfTwo_and_le_65536_iff, ← ne_zero_and_sub_one_iff_two_pow]
  simp only [cfgValid, Bool.and_eq_true, bne_iff_ne, beq_iff_eq, decide_eq_true_eq, and_assoc]

/-! ### The errors of a matrix command (R183 to R185, R188) -/

/-- R183: an invalid configuration is the first error. -/
theorem matrixCommand_cfgInvalid {s : State} (hcfg : cfgValid s = false) (i : Instr) (rows cols : List Index)
    (f : State → Except Fault State) :
    matrixCommand i rows cols f s = .next (raise .cfgInvalid (encode i) s) := by
  simp [matrixCommand, hcfg]

/-- R184: a row out of range is the second error. -/
theorem matrixCommand_rowRange {s : State} {rows : List Index} (hcfg : cfgValid s = true)
    (hrow : ∃ r ∈ rows, s.nrows.toNat ≤ r.toNat) (i : Instr) (cols : List Index) (f : State → Except Fault State) :
    matrixCommand i rows cols f s = .next (raise .rowRange (encode i) s) := by
  have hcheck : rows.all (rowInRange s) = false := by simpa [rowInRange] using hrow
  simp [matrixCommand, hcfg, hcheck]

/-- R185: a column out of range is the third error. -/
theorem matrixCommand_colRange {s : State} {rows cols : List Index} (hcfg : cfgValid s = true)
    (hrow : ∀ r ∈ rows, r.toNat < s.nrows.toNat) (hcol : ∃ c ∈ cols, s.ncols.toNat ≤ c.toNat) (i : Instr)
    (f : State → Except Fault State) :
    matrixCommand i rows cols f s = .next (raise .colRange (encode i) s) := by
  have hrows : rows.all (rowInRange s) = true := by simpa [rowInRange] using hrow
  have hcheck : cols.all (colInRange s) = false := by simpa [colInRange] using hcol
  simp [matrixCommand, hcfg, hrows, hcheck]

/-- R82, R188: the meaning of a command with row operands is its checks, over its own operands, and then a
performance. -/
theorem exec_eq_matrixCommand {i : Instr} (h : rowOperands i ≠ []) :
    ∃ f, exec i = matrixCommand i (rowOperands i) (colOperands i) f := by
  cases i with
  | nop | init | permFull | permRed | absorb | absorbSafe | squeeze => exact absurd rfl h
  | blkRead | blkWrite | seedRow0 | duplexRow1 | duplexSetup | duplexWander => exact ⟨_, rfl⟩

/-- Settles O26: a matrix command answers with the first check that fails, and `raise` keeps an error already
latched. -/
theorem matrixCommandErrorsInOrder : Obligations.MatrixCommandErrorsInOrder := by
  intro i s hmatrix
  obtain ⟨f, hf⟩ := exec_eq_matrixCommand hmatrix
  rw [hf]
  refine ⟨fun hcfg => ?_, fun hcfg hrow => ?_, fun hcfg hrow hcol => ?_⟩
  · exact matrixCommand_cfgInvalid hcfg i _ _ f
  · exact matrixCommand_rowRange hcfg hrow i _ f
  · exact matrixCommand_colRange hcfg hrow hcol i f

/-! ### The first error is kept (R186, R187) -/

/-- Settles O28: on its turn the step is the sequencer's, which keeps an error already latched. -/
theorem latchedErrorSurvivesCommands : Obligations.LatchedErrorSurvivesCommands := by
  intro s t herr hturn hstep
  rw [step_on_sequencersTurn hturn] at hstep
  exact sequencerStep_keeps_latched_error (s := { s with bus := s.bus.tail }) hstep herr

/-! ### The idle block (R199) -/

/-- R82: with an empty slot the sequencer's step is not enabled. -/
theorem sequencerStep_of_pending_none {s : State} (h : s.pending = none) : sequencerStep s = .next s := by
  simp only [sequencerStep, h]

/-- Settles O7: with no event left the step is the sequencer's, and its slot is empty. -/
theorem idleBlockHoldsItsState : Obligations.IdleBlockHoldsItsState := fun s hbus hpending =>
  (step_nil s hbus).trans (sequencerStep_of_pending_none hpending)

end Sys2Proof.Machine
end

section
/-! The statement of 70_reset_and_hazards.md: words written under another configuration (R217). -/

namespace Sys2Proof.Machine

/-- R217: a new NROWS and NCOLS move and clear no word, so a readable word answers under them with its own value or
not at all. -/
theorem readWord_reconfigured_ok_iff {s : State} {a : Nat} {w : Word} (h : readWord s a = .ok w)
    (v nrows ncols : Word) :
    readWord { s with nrows := nrows, ncols := ncols } a = .ok v ↔ v = w ∧ nrows = s.nrows ∧ ncols = s.ncols := by
  have hlookup := (readWord_ok_iff s a w).mp h
  rw [readWord_ok_iff]
  simp only [hlookup, Option.some.injEq, Stored.mk.injEq, eq_comm]

/-- Settles O50: whatever the reconfigured state reads at the address, its NROWS and NCOLS are those the word was
written under. -/
theorem reconfiguredWordsReadAsUnwritten : Obligations.ReconfiguredWordsReadAsUnwritten := by
  intro s a w nrows ncols h
  have hread (v : Word) := readWord_reconfigured_ok_iff h v nrows ncols
  constructor
  · exact (hread w).trans (and_iff_right rfl)
  · rintro hchanged ⟨v, hv⟩
    exact hchanged ((hread v).mp hv).2

end Sys2Proof.Machine
end
